-- ==== Sys2Proof/Word.lean ====
section
/-! DEFINITION. The widths the PXU's packets and buffer words have (00_scope.md R5, R6). -/

namespace Sys2Proof

/-- One lane, one pixel: `LANE_BITS` = 8 (R5). -/
abbrev Byte := BitVec 8

/-- One operand word of a packet, and a descriptor register: `DIM_BITS`, `COORD_BITS`, `VAL_BITS` = 32 (R5). -/
abbrev Word32 := BitVec 32

/-- One word of BUF: `WORD_BITS` = 64 (R5). -/
abbrev Word64 := BitVec 64

/-- A command packet: `CMD_BITS` = 256 (R5). -/
abbrev Packet := BitVec 256

/-- A response packet: `RSP_BITS` = 128 (R5). -/
abbrev RspPacket := BitVec 128

end Sys2Proof
end

