-- ==== Sys2Proof/Config.lean ====
section
/-! DEFINITION. What an implementation of the PXU fixes (00_scope.md R5; 92_eei_decisions.md, "Parameters left to the model's
configuration"), and the free values of a buffer word nothing has written. -/

namespace Sys2Proof

/-- `AXIS_MAP` (R5, D12): how a rasterizer pixel `(a, b)` becomes `(row, col)`. -/
inductive AxisMap where
  /-- `row = a, col = b`, the default. -/
  | xrow
  /-- `row = b, col = a`. -/
  | xcol
deriving DecidableEq, Repr

/-- The rows of R5 marked *parameter*. They are plain data carried by State, so a statement about every state is a statement
about every configuration. -/
structure Params where
  /-- `MEM_WORDS`: how many 64-bit words BUF holds (D8, OPEN). -/
  memWords : Nat
  /-- `AXIS_MAP` (D12). -/
  axisMap : AxisMap
  /-- `HAS_FILLN`: whether the FILLN command exists (D16). -/
  hasFilln : Bool
deriving DecidableEq, Repr

/-- `MEM_WORDS` of the machine that `State.reset` describes. The spec leaves it OPEN and gives no default (D8), so it has no
body here and no proof can see a value of it (log 1). -/
opaque Config.memWords : Nat

/-- The free value of a buffer word (R28, D17): what word `i` reads as after draw number `n` while nothing has been written to
it. No body: a claim that mentions it holds whatever it is (log 3). -/
opaque Config.draw : Nat → Nat → Word64

/-- The configuration at reset: `MEM_WORDS` free, the other two at the spec's defaults (D12, D16; log 1, log 2). -/
def Config.params : Params :=
  { memWords := Config.memWords, axisMap := .xrow, hasFilln := true }

end Sys2Proof
end

