-- ==== Sys2Proof/Syntax.lean ====
section
/-! DEFINITION. The seven commands of PXU command set 1 (30_encoding.md R71; spec/opcode_table.json). An operand is the 32-bit
word the packet carries; R73's reading of it as a number is in Machine/Operands.lean. -/

namespace Sys2Proof

/-- One constructor per row of the opcode table, operands in packet order `a1 .. a6, v` (R71). -/
inductive Instr where
  /-- CREATE (R111). -/
  | create (width height name maxValue : Word32)
  /-- RELEASE (R112). -/
  | release
  /-- SETPOINT (R113). -/
  | setpoint (row col value : Word32)
  /-- GETPOINT (R114). -/
  | getpoint (row col : Word32)
  /-- LINE (R133). -/
  | line (x0 y0 x1 y1 color : Word32)
  /-- TRI (R140). -/
  | tri (x0 y0 x1 y1 x2 y2 color : Word32)
  /-- FILLN (R142), present only when `HAS_FILLN`. -/
  | filln (x y color : Word32)
deriving DecidableEq, Repr

end Sys2Proof
end

