-- ==== Sys2Proof/WellFormed.lean ====
section
/-! DEFINITION. Which commands a configuration has. Every operand is a whole 32-bit word with every value admitted (R73), so
the one check is that FILLN exists (30_encoding.md R72). -/

namespace Sys2Proof

/-- R72: opcode `0x07` selects FILLN when `HAS_FILLN` is true and is illegal when it is false. -/
def Instr.wellFormed (p : Params) : Instr → Bool
  | .create _ _ _ _ => true
  | .release => true
  | .setpoint _ _ _ => true
  | .getpoint _ _ => true
  | .line _ _ _ _ _ => true
  | .tri _ _ _ _ _ _ _ => true
  | .filln _ _ _ => p.hasFilln

end Sys2Proof
end

