-- ==== Sys2Proof/Decode.lean ====
section
/-! DEFINITION. The command packet (30_encoding.md R70 to R74): its fields, the decoder, and after it the encoder. -/

namespace Sys2Proof

/-- `Wk = P[32k+31 : 32k]` (R70). -/
def packetWord (P : Packet) (k : Nat) : Word32 := P.extractLsb' (32 * k) 32

/-- `opcode = P[7:0]` (R70). -/
def packetOpcode (P : Packet) : BitVec 8 := P.extractLsb' 0 8

/-- `rsv0 = P[31:8]`, reserved, must be zero (R70). -/
def packetRsv0 (P : Packet) : BitVec 24 := P.extractLsb' 8 24

/-- Why a packet is illegal: the three grounds of R74. -/
inductive DecodeError where
  /-- (a) the opcode selects no command: `0x00`, `0x08 .. 0xFF`, or `0x07` with `HAS_FILLN` false. -/
  | illegalOpcode
  /-- (b) `rsv0` is not zero. -/
  | reservedField
  /-- (c) an operand word that R71 marks with a dash is not zero. -/
  | reservedWord
deriving DecidableEq, Repr

/-- The words numbered `ks` are all zero: R71's dashes. -/
def wordsAreZero (P : Packet) : List Nat → Bool
  | [] => true
  | k :: ks => packetWord P k == 0 && wordsAreZero P ks

/-- A command whose packet must leave the words `dashes` zero (R74 (c)). -/
def decodeWith (P : Packet) (dashes : List Nat) (i : Instr) : Except DecodeError Instr :=
  if wordsAreZero P dashes then .ok i else .error .reservedWord

/-- The decoder: total on every packet, each illegal one rejected by the name of its ground (R72, R74). -/
def decode (p : Params) (P : Packet) : Except DecodeError Instr :=
  let w := packetWord P
  let op := packetOpcode P
  if packetRsv0 P ≠ 0 then .error .reservedField
  else if op = 0x01 then decodeWith P [4, 5, 6] (.create (w 1) (w 2) (w 3) (w 7))
  else if op = 0x02 then decodeWith P [1, 2, 3, 4, 5, 6, 7] .release
  else if op = 0x03 then decodeWith P [3, 4, 5, 6] (.setpoint (w 1) (w 2) (w 7))
  else if op = 0x04 then decodeWith P [3, 4, 5, 6, 7] (.getpoint (w 1) (w 2))
  else if op = 0x05 then decodeWith P [5, 6] (.line (w 1) (w 2) (w 3) (w 4) (w 7))
  else if op = 0x06 then decodeWith P [] (.tri (w 1) (w 2) (w 3) (w 4) (w 5) (w 6) (w 7))
  else if op = 0x07 ∧ p.hasFilln = true then decodeWith P [3, 4, 5, 6] (.filln (w 1) (w 2) (w 7))
  else .error .illegalOpcode

/-- A packet from its eight words, `W7` in the most significant place (R70, R82). -/
def packetOf (w0 w1 w2 w3 w4 w5 w6 w7 : Word32) : Packet :=
  w7 ++ w6 ++ w5 ++ w4 ++ w3 ++ w2 ++ w1 ++ w0

/-- A packet as R82 prints it: `W0 W1 .. W7`. -/
def packetWords (P : Packet) : List Word32 := (List.range 8).map (packetWord P)

/-- The encoder: the operand assignment of R71, dashes zero. -/
def encode : Instr → Packet
  | .create width height name maxValue => packetOf 0x01 width height name 0 0 0 maxValue
  | .release => packetOf 0x02 0 0 0 0 0 0 0
  | .setpoint row col value => packetOf 0x03 row col 0 0 0 0 value
  | .getpoint row col => packetOf 0x04 row col 0 0 0 0 0
  | .line x0 y0 x1 y1 color => packetOf 0x05 x0 y0 x1 y1 0 0 color
  | .tri x0 y0 x1 y1 x2 y2 color => packetOf 0x06 x0 y0 x1 y1 x2 y2 color
  | .filln x y color => packetOf 0x07 x y 0 0 0 0 color

/-- The packet that a word `w` of the opcode table stands for: its `nbits` low bits, every bit above them zero. A packet is
handed over whole on the command channel (R78), so there is no byte order to lay it out in. -/
def packetOfTableWord (nbits w : Nat) : Packet := BitVec.ofNat 256 (w % 2 ^ nbits)

/-- What the decoder reads from a word numbered as spec/opcode_table.json numbers it, under the configuration at reset. -/
def decodeTableWord (nbits w : Nat) : Option Instr :=
  (decode Config.params (packetOfTableWord nbits w)).toOption

end Sys2Proof
end

