-- ==== Sys2Proof/Machine/Operands.lean ====
section
/-! DEFINITION. How each operand word becomes a value (30_encoding.md R73) and how a value becomes a response word (R76). -/

namespace Sys2Proof.Machine

open Sys2Proof

/-- `uint_32` (00_scope.md R7): `width`, `height`, `row`, `col`. -/
def uint32 (w : Word32) : Int := w.toNat

/-- `sint_32` (R7), two's complement: the rasterizer's coordinates. -/
def sint32 (w : Word32) : Int := w.toInt

/-- `value & 0xFF`: all that is ever used of `value` and `color` (R73, R95). -/
def lowByte (w : Word32) : Byte := w.extractLsb' 0 8

/-- `low_32(v)`: the 32 low bits of the two's complement of `v` (R7), as `frow` and `fcol` report a coordinate (R76). -/
def low32 (v : Int) : Word32 := BitVec.ofInt 32 v

end Sys2Proof.Machine
end

