-- ==== Sys2Proof/Machine/State.lean ====
section
/-! DEFINITION. The state of the PXU and of the host's side of its two channels (10_state.md), as plain data, and the state after
reset (R30). The reset operation itself is in Machine/Transport.lean. -/

namespace Sys2Proof.Machine

open Sys2Proof

/-- Why a step stops. -/
inductive Fault where
  /-- STUCK: a command is offered to a halted unit, which accepts none until reset (60_exceptions.md R174: "this state is *stuck
  and never final*: a later command has no step"). Raised by `command` for a command executed with `HALT = 1`, and by the step
  when a packet is presented, the unit is halted and the host makes no move. Safe: nothing is claimed to happen. -/
  | halted
deriving DecidableEq, Repr

/-- Why an instruction has no meaning. -/
inductive Refusal where
  /-- The instruction's arm in Machine/Dispatch.lean gives no meaning yet. No arm answers so: every command is modelled. Safe. -/
  | notModelled (mnemonic : String)
deriving DecidableEq, Repr

/-- `PHASE` (R26). -/
inductive Phase where
  /-- Ready for a command. -/
  | idle
  /-- Executing one. -/
  | busy
  /-- A response is waiting to be taken. -/
  | resp
deriving DecidableEq, Repr

/-- A rasterizer coordinate pair `(x, y)` (00_scope.md R11), exact integers (R7). -/
structure Point where
  x : Int
  y : Int
deriving DecidableEq, Repr

/-- The rasterizer's working registers (R26), live only inside one command. Held as exact integers (R21: "they are exact
integers"; log 7). -/
structure Work where
  /-- `STEEP`: the line's steep flag. -/
  steep : Bool
  /-- `X0,Y0,X1,Y1`: the current line's endpoints after normalisation. -/
  x0 : Int
  y0 : Int
  x1 : Int
  y1 : Int
  /-- `DX = X1 - X0`. -/
  dx : Int
  /-- `DERR = 2*|Y1-Y0|`. -/
  derr : Int
  /-- `YSTEP = sgn(Y1 - Y0)`. -/
  ystep : Int
  /-- `ERR`: the error accumulator. -/
  err : Int
  /-- `X, Y`: the current pixel of the walk, before the steep un-swap. -/
  x : Int
  y : Int
  /-- `V0,V1,V2`: the triangle's vertices after sorting. -/
  v0 : Point
  v1 : Point
  v2 : Point
  /-- `EDGE`: which edge is being drawn. -/
  edge : Fin 3
  /-- `NB`: which neighbour is being painted. -/
  nb : Fin 4
deriving DecidableEq, Repr

/-- BUF (R25). `cells` lists the lanes written since their word was last drawn, at key `8*i + k` for lane `k` of word `i`, keys
strictly rising (log 4). `draws` is the model's own: the word counts of the draws of R28 made so far, newest first; a draw of
`n` words gives words `0 .. n-1` fresh free values (log 3). -/
structure Memory where
  cells : List Host.Cell
  draws : List Nat
deriving DecidableEq, Repr

/-- A move of the host (00_scope.md R10). Observing the status outputs changes nothing (R27), so it is no move here. -/
inductive HostMove where
  /-- Present a command packet on the command channel. -/
  | present (P : Packet)
  /-- Take the response offered. -/
  | take
  /-- Assert reset. -/
  | reset
deriving DecidableEq, Repr

/-- Everything the spec gives the machine. -/
structure State where
  /-- The parameters of R5, fixed for the machine. -/
  cfg : Params
  /-- `LIVE` (R22). -/
  live : Bool
  /-- `HALT` (R22). -/
  halt : Bool
  /-- `WIDTH` (R23). -/
  width : Word32
  /-- `HEIGHT` (R23). -/
  height : Word32
  /-- `MAXVAL` (R23), opaque. -/
  maxval : Word32
  /-- `NAME` (R23), opaque. -/
  name : Word32
  /-- `BUF` (R25). -/
  mem : Memory
  /-- `PHASE` (R26). -/
  phase : Phase
  /-- `CMD` (R26): the operand latch. -/
  cmd : Packet
  /-- `RSP` (R26): the response packet being offered; it is pending while `phase` is `resp`. -/
  rsp : RspPacket
  /-- The rasterizer's working registers (R26). -/
  work : Work
  /-- The command channel (R78): the packet presented and not yet accepted. -/
  chan : Option Packet
  /-- The host's side: the moves it is still going to make, in order. -/
  host : List HostMove
  /-- The host's side: the responses of the current run it has taken, newest first; a run starts at the reset state (R194). -/
  taken : List RspPacket
  /-- The host's side: the same record of each run that a reset has closed, newest first (log 20). -/
  pastRuns : List (List RspPacket)
deriving DecidableEq, Repr

/-- The working registers after reset: the spec leaves them unspecified (R30); DESIGN CHOICE zero (log 6). -/
def Work.reset : Work :=
  { steep := false, x0 := 0, y0 := 0, x1 := 0, y1 := 0, dx := 0, derr := 0, ystep := 0, err := 0, x := 0, y := 0,
    v0 := ⟨0, 0⟩, v1 := ⟨0, 0⟩, v2 := ⟨0, 0⟩, edge := 0, nb := 0 }

/-- The state after reset (R30) of a unit with configuration `cfg`, no command presented and the host at rest. `cmd`, `rsp` and
`work` are unspecified there; DESIGN CHOICE zero (log 6). -/
def State.resetOf (cfg : Params) : State :=
  { cfg := cfg, live := false, halt := false, width := 0, height := 0, maxval := 0, name := 0,
    mem := { cells := [], draws := [] }, phase := .idle, cmd := 0, rsp := 0, work := Work.reset,
    chan := none, host := [], taken := [], pastRuns := [] }

/-- The machine right after reset (R30). -/
def State.reset : State := State.resetOf Config.params

end Sys2Proof.Machine
end

