-- ==== Sys2Proof/Machine/IndexLane.lean ====
section
/-! DEFINITION. The index decoder IDX and the lane datapath LANE (40_index_lane.md R90 to R95). -/

namespace Sys2Proof.Machine

open Sys2Proof

/-- `STRIDE = floor(WIDTH / 8) + 1` (10_state.md R24, R91), for a width in pixels. -/
def strideOf (width : Nat) : Nat := width / 8 + 1

/-- `InBounds(row, col)` (R90): on exact integers, against the declared dimensions. -/
def inBounds (s : State) (row col : Int) : Bool :=
  decide (0 ≤ row) && decide (row < uint32 s.height) && decide (0 ≤ col) && decide (col < uint32 s.width)

/-- What `Index` answers: a word of BUF and a bit offset in it (R91). -/
structure LaneAddr where
  word : Nat
  bit : Nat
deriving DecidableEq, Repr

/-- `Index(row, col)` (R91), for an image `width` pixels wide. -/
def index (width row col : Nat) : LaneAddr :=
  { word := row * strideOf width + col / 8, bit := 8 * (col % 8) }

/-- `LaneMask(b) = 0xFF << b` (R93). -/
def laneMask (b : Nat) : Word64 := (0xFF : Word64) <<< b

/-- `LaneExtract(w, b) = (w >> b) & 0xFF = w[b+7 : b]` (R94). -/
def laneExtract (w : Word64) (b : Nat) : Byte := w.extractLsb' b 8

/-- `LaneInsert(w, b, value) = (w & ~LaneMask(b)) | ((value & 0xFF) << b)` (R95). -/
def laneInsert (w : Word64) (b : Nat) (value : Word32) : Word64 :=
  (w &&& ~~~ laneMask b) ||| (((lowByte value).setWidth 64) <<< b)

end Sys2Proof.Machine
end

