-- ==== Sys2Proof/Machine/Flags.lean ====
section
/-! DEFINITION. The unit's flags and the fields derived from the descriptor: STRIDE, ALLOC, SIZE (10_state.md R24), the words an
image needs (41_pixel_commands.md R111), readiness (30_encoding.md R78), the steep flag and the sign of a line
(42_rasterizer.md R131), and the status outputs (R27). -/

namespace Sys2Proof.Machine

open Sys2Proof

/-- The words an image of these dimensions needs (R111): none when `width * height = 0`. -/
def needOf (width height : Nat) : Nat :=
  if width * height > 0 then height * strideOf width else 0

/-- `STRIDE` (R24). -/
def State.stride (s : State) : Nat := strideOf s.width.toNat

/-- `ALLOC` (R24): a buffer is present. -/
def State.alloc (s : State) : Bool := s.live && decide (s.width.toNat * s.height.toNat > 0)

/-- `SIZE` (R24): the buffer's length in words. -/
def State.size (s : State) : Nat := if s.alloc then s.height.toNat * s.stride else 0

/-- The unit accepts a command only when `PHASE == IDLE` and `HALT == 0` (R78). -/
def State.ready (s : State) : Bool := decide (s.phase = .idle) && !s.halt

/-- `STEEP` (R131): `|x0 - x1| < |y0 - y1|`, strict. -/
def steepOf (x0 y0 x1 y1 : Int) : Bool := decide ((x0 - x1).natAbs < (y0 - y1).natAbs)

/-- `sgn` (R7): `-1`, `0` or `+1`. -/
def sgn (a : Int) : Int := if a > 0 then 1 else if a < 0 then -1 else 0

/-- What the host can observe without a command (R27). -/
structure Outputs where
  live : Bool
  halt : Bool
  width : Word32
  height : Word32
  maxval : Word32
  name : Word32
  stride : Nat
  alloc : Bool
  size : Nat
  idle : Bool
deriving DecidableEq, Repr

/-- The status outputs (R27): a projection of the state, so observing them changes nothing. -/
def State.outputs (s : State) : Outputs :=
  { live := s.live, halt := s.halt, width := s.width, height := s.height, maxval := s.maxval, name := s.name,
    stride := s.stride, alloc := s.alloc, size := s.size, idle := decide (s.phase = .idle) }

end Sys2Proof.Machine
end

