-- ==== Sys2Proof/Machine/Response.lean ====
section
/-! DEFINITION. The response packet (30_encoding.md R76) and the status codes (60_exceptions.md R171). -/

namespace Sys2Proof.Machine

open Sys2Proof

/-- The statuses of R171. -/
inductive Status where
  | ok
  | outOfBounds
  | allocationFailure
  | invalidState
  | illegalCommand
deriving DecidableEq, Repr

/-- The status codes of R171. -/
def Status.code : Status → Byte
  | .ok => 0x00
  | .outOfBounds => 0x01
  | .allocationFailure => 0x02
  | .invalidState => 0x03
  | .illegalCommand => 0x04

/-- The fields of a response that are not fixed at zero (R76). -/
structure Response where
  status : Status
  data : Byte
  frow : Word32
  fcol : Word32
deriving DecidableEq, Repr

/-- A response packet from its words `R0 .. R3`, `R3` in the most significant place (R6, R82). -/
def rspOf (r0 r1 r2 r3 : Word32) : RspPacket := r3 ++ r2 ++ r1 ++ r0

/-- `R0`: `status` in bits 7:0, `data` in bits 15:8, zero above (R76). -/
def rspWord0 (status data : Byte) : Word32 := (0 : BitVec 16) ++ data ++ status

/-- The response packet of R76. -/
def Response.pack (r : Response) : RspPacket := rspOf (rspWord0 r.status.code r.data) r.frow r.fcol 0

/-- `Rk = Q[32k+31 : 32k]` (R6). -/
def rspWord (Q : RspPacket) (k : Nat) : Word32 := Q.extractLsb' (32 * k) 32

/-- `status = Q[7:0]` (R76). -/
def rspStatus (Q : RspPacket) : Byte := Q.extractLsb' 0 8

/-- `data = Q[15:8]` (R76). -/
def rspData (Q : RspPacket) : Byte := Q.extractLsb' 8 8

/-- `frow = Q[63:32]` (R76). -/
def rspFrow (Q : RspPacket) : Word32 := Q.extractLsb' 32 32

/-- `fcol = Q[95:64]` (R76). -/
def rspFcol (Q : RspPacket) : Word32 := Q.extractLsb' 64 32

/-- A response packet as R82 prints it: `R0 R1 R2 R3`. -/
def rspWords (Q : RspPacket) : List Word32 := (List.range 4).map (rspWord Q)

end Sys2Proof.Machine
end

