-- ==== Sys2Proof/Machine/Ops.lean ====
section
/-! DEFINITION. The named operations over memory and state: BUF (20_memory.md), the two pixel primitives (40_index_lane.md R96,
R97), raising a fault and responding (60_exceptions.md R172; 00_scope.md R8), and the prologue of every command
(41_pixel_commands.md R110). -/

namespace Sys2Proof.Machine

open Sys2Proof

/-! ### BUF -/

/-- The canonical form of BUF's listed lanes: keys strictly rising. -/
abbrev Memory.wf (m : Memory) : Prop := m.cells.Pairwise (fun a b => a.1 < b.1)

/-- The lane listed at a key, if one is. -/
def lookupCell : List Host.Cell → Nat → Option Byte
  | [], _ => none
  | c :: cells, key => if key = c.1 then some c.2 else lookupCell cells key

/-- List a lane at a key, keeping the keys strictly rising. -/
def insertCell : List Host.Cell → Nat → Byte → List Host.Cell
  | [], key, b => [(key, b)]
  | c :: cells, key, b =>
    if key < c.1 then (key, b) :: c :: cells
    else if key = c.1 then (key, b) :: cells
    else c :: insertCell cells key b

/-- The key of lane `lane` of word `word`: a number for the lane, not a byte address of the hardware (R50, R52; log 4). -/
def laneKey (word lane : Nat) : Nat := 8 * word + lane

/-- The number of the latest draw that covered word `i`; 0 when none has (R28). -/
def drawNumber : List Nat → Nat → Nat
  | [], _ => 0
  | n :: older, i => if i < n then older.length + 1 else drawNumber older i

/-- What word `i` holds while nothing has been written to it: the free value of its latest draw (R28, D17). This is the ONE
definition of what an unlisted lane reads as. -/
def Memory.freeWord (m : Memory) (i : Nat) : Word64 := Config.draw (drawNumber m.draws i) i

/-- Lane `lane` of word `word`. -/
def Memory.lane (m : Memory) (word lane : Nat) : Byte :=
  match lookupCell m.cells (laneKey word lane) with
  | some b => b
  | none => laneExtract (m.freeWord word) (8 * lane)

/-- Write one lane of one word. -/
def Memory.writeLane (m : Memory) (word lane : Nat) (b : Byte) : Memory :=
  { m with cells := insertCell m.cells (laneKey word lane) b }

/-- `MemRead(i, 8)`: the whole word `BUF[i]`, lane `k` in bits `8k+7 .. 8k` (R50, R51). -/
def Memory.readWord (m : Memory) (i : Nat) : Word64 :=
  m.lane i 7 ++ m.lane i 6 ++ m.lane i 5 ++ m.lane i 4 ++ m.lane i 3 ++ m.lane i 2 ++ m.lane i 1 ++ m.lane i 0

/-- `MemWrite(i, 8, w)`: `BUF[i] <- w` (R50, R51). -/
def Memory.writeWord (m : Memory) (i : Nat) (w : Word64) : Memory :=
  (List.range 8).foldl (fun m k => m.writeLane i k (laneExtract w (8 * k))) m

/-- Words `0 .. n-1` take unspecified values, one draw a word; no memory access is made (R28, R111). The other words keep
theirs. -/
def Memory.redraw (m : Memory) (n : Nat) : Memory :=
  { cells := m.cells.filter (fun c => decide (8 * n ≤ c.1)), draws := n :: m.draws }

/-- Replace BUF. -/
def State.withMem (s : State) (m : Memory) : State := { s with mem := m }

/-- Replace the working registers. -/
def State.withWork (s : State) (w : Work) : State := { s with work := w }

/-! ### Ending a command -/

/-- Offer a response (R78): `RSP` holds the packet and `PHASE` is `RESP`. -/
def respond (r : Response) (s : State) : State := { s with rsp := r.pack, phase := .resp }

/-- `respond OK(data)` (R8): `data` is 0 when omitted. -/
def respondOk (data : Byte) (s : State) : State :=
  respond { status := .ok, data := data, frow := 0, fcol := 0 } s

/-- `raise F(info)` (R172): stop, change nothing more, and offer the response with `status = F` and the info in `frow`, `fcol`.
There is no handler, no saved state and no mode to change; the one fault with an info is OutOfBounds (R171). -/
def raise (f : Status) (row col : Int) (s : State) : State :=
  respond { status := f, data := 0, frow := low32 row, fcol := low32 col } s

/-- A fault that records nothing (R171). -/
def raisePlain (f : Status) (s : State) : State := raise f 0 0 s

/-- The end of the answer to a command, fault or not (R78, R172, R179): the host takes the response and the unit is `IDLE`
again, un-ready still if it is halted (log 14). There is no other return from a fault. `CMD` and `RSP` are dead from here on (R20,
R26); that they keep the last packets is the model's choice (log 19). -/
def takeResponse (s : State) : State := { s with phase := .idle, taken := s.rsp :: s.taken }

/-! ### Pixel accesses -/

/-- How far a sequence of pixel accesses has come (R8, R145). -/
inductive Run where
  /-- Every access so far succeeded. -/
  | going (s : State)
  /-- The access of pixel `(row, col)` raised OutOfBounds; `s` holds what the earlier ones wrote. -/
  | failed (row col : Int) (s : State)
deriving DecidableEq, Repr

/-- Go on with `f` unless an access has failed: no later access after the first failing one (R145). -/
def Run.andThen (r : Run) (f : State → Run) : Run :=
  match r with
  | .going s => f s
  | .failed row col s => .failed row col s

/-- The state a run has reached. -/
def Run.state : Run → State
  | .going s => s
  | .failed _ _ s => s

/-- The pixel whose access failed, if one did. -/
def Run.failure : Run → Option (Int × Int)
  | .going _ => none
  | .failed row col _ => some (row, col)

/-- The word and lane of an in-bounds pixel (R91). -/
def pixelAddr (s : State) (row col : Int) : LaneAddr := index s.width.toNat row.toNat col.toNat

/-- `SetPoint(row, col, value)` (R96). The pseudocode's `MemRead`, `LaneInsert`, `MemWrite` change the 8 bits of one lane and
nothing else; that lane is what is written here (log 5; that every word then reads as R96 says is Obligations.SetPointReadsInsertsAndWritesTheWord). -/
def setPoint (row col : Int) (value : Word32) (s : State) : Run :=
  if inBounds s row col then
    let a := pixelAddr s row col
    .going (s.withMem (s.mem.writeLane a.word (a.bit / 8) (lowByte value)))
  else .failed row col s

/-- `GetPoint(row, col)` (R97): `LaneExtract` of the pixel's word, `none` when OutOfBounds. Read as the lane it extracts
(log 5; Obligations.GetPointExtractsTheLaneOfTheWord). -/
def getPoint (row col : Int) (s : State) : Option Byte :=
  if inBounds s row col then
    let a := pixelAddr s row col
    some (s.mem.lane a.word (a.bit / 8))
  else none

/-- A command whose accesses are `r`: OK when all succeeded, else OutOfBounds with the failing pixel (R145, R173). -/
def Run.finish : Run → State
  | .going s => respondOk 0 s
  | .failed row col s => raise .outOfBounds row col s

/-! ### The prologue -/

/-- The columns of R110's lifecycle table a command proceeds in. -/
inductive Needs where
  /-- CREATE: no image, or one without a buffer. -/
  | noBuffer
  /-- Every other command: an image. -/
  | image
deriving DecidableEq, Repr

/-- R110 step 2, the lifecycle check. -/
def lifecycleAllows (n : Needs) (s : State) : Bool :=
  match n with
  | .noBuffer => !s.alloc
  | .image => s.live

/-- `Execute(P)` for a legal packet (R110): a halted unit has no step (R174); then the lifecycle check; then the command's own
rule. -/
def command (n : Needs) (body : State → State) (s : State) : Host.Outcome State Fault Refusal :=
  if s.halt then .fault .halted
  else if lifecycleAllows n s then .next (body s)
  else .next (raisePlain .invalidState s)

/-- `Execute(P)` for a packet the unit finds illegal (R74, R176): IllegalCommand whatever the lifecycle state. -/
def illegalCommand (s : State) : Host.Outcome State Fault Refusal :=
  if s.halt then .fault .halted else .next (raisePlain .illegalCommand s)

end Sys2Proof.Machine
end

