-- ==== Sys2Proof/Machine/PixelStore.lean ====
section
/-! DEFINITION. The pixel-store commands CREATE, RELEASE, SETPOINT, GETPOINT (41_pixel_commands.md R111 to R114). -/

namespace Sys2Proof.Machine

open Sys2Proof

/-- R111: CREATE's own rule. An image with no buffer draws no word. -/
def createBody (width height name maxValue : Word32) (s : State) : State :=
  let need := needOf width.toNat height.toNat
  if need > s.cfg.memWords then raisePlain .allocationFailure { s with halt := true }
  else
    respondOk 0
      { s with live := true, width := width, height := height, maxval := maxValue, name := name,
               mem := if need > 0 then s.mem.redraw need else s.mem }

/-- CREATE (R111). -/
def execCreate (width height name maxValue : Word32) (s : State) : Host.Outcome State Fault Refusal :=
  command .noBuffer (createBody width height name maxValue) s

/-- R112: RELEASE's own rule. BUF is not accessed. -/
def releaseBody (s : State) : State :=
  respondOk 0 { s with live := false, width := 0, height := 0, maxval := 0, name := 0 }

/-- RELEASE (R112). -/
def execRelease (s : State) : Host.Outcome State Fault Refusal :=
  command .image releaseBody s

/-- R113: SETPOINT's own rule. -/
def setpointBody (row col value : Word32) (s : State) : State :=
  (setPoint (uint32 row) (uint32 col) value s).finish

/-- SETPOINT (R113). -/
def execSetpoint (row col value : Word32) (s : State) : Host.Outcome State Fault Refusal :=
  command .image (setpointBody row col value) s

/-- R114: GETPOINT's own rule: the pixel's byte is the response's `data`. -/
def getpointBody (row col : Word32) (s : State) : State :=
  match getPoint (uint32 row) (uint32 col) s with
  | some d => respondOk d s
  | none => raise .outOfBounds (uint32 row) (uint32 col) s

/-- GETPOINT (R114). -/
def execGetpoint (row col : Word32) (s : State) : Host.Outcome State Fault Refusal :=
  command .image (getpointBody row col) s

end Sys2Proof.Machine
end

