-- ==== Sys2Proof/Machine/Rasterizer.lean ====
section
/-! DEFINITION. The rasterizer RAST: LINE, TRI, FILLN (42_rasterizer.md R130 to R145). All arithmetic is exact (R7). -/

namespace Sys2Proof.Machine

open Sys2Proof

/-! ### Plot -/

/-- The pixel `(row, col)` of a rasterizer point, under `AXIS_MAP` (R130). -/
def pixelOf (m : AxisMap) (p : Point) : Int × Int :=
  match m with
  | .xrow => (p.x, p.y)
  | .xcol => (p.y, p.x)

/-- `Plot(a, b, color)` (R130). -/
def plot (p : Point) (color : Word32) (s : State) : Run :=
  setPoint (pixelOf s.cfg.axisMap p).1 (pixelOf s.cfg.axisMap p).2 color s

/-! ### The line engine -/

/-- Normalisation (R131) and the start of the walk (R132): `err <- 0`, `y <- y0`, and the loop variable at `x0`. -/
def Work.startLine (w : Work) (x0 y0 x1 y1 : Int) : Work :=
  let steep := steepOf x0 y0 x1 y1
  let a := if steep then (⟨y0, x0⟩ : Point) else ⟨x0, y0⟩
  let b := if steep then (⟨y1, x1⟩ : Point) else ⟨x1, y1⟩
  let p := if a.x > b.x then b else a
  let q := if a.x > b.x then a else b
  { w with
    steep := steep, x0 := p.x, y0 := p.y, x1 := q.x, y1 := q.y,
    dx := q.x - p.x, derr := 2 * (q.y - p.y).natAbs, ystep := sgn (q.y - p.y),
    err := 0, x := p.x, y := p.y }

/-- The pixel of the walk as a point of the operands' coordinate system: the steep un-swap (R132). -/
def Work.point (w : Work) : Point := if w.steep then ⟨w.y, w.x⟩ else ⟨w.x, w.y⟩

/-- The accumulator update after a plot (R132), strict `>`. -/
def Work.update (w : Work) : Work :=
  if w.err + w.derr > w.dx then { w with y := w.y + w.ystep, err := w.err + w.derr - 2 * w.dx }
  else { w with err := w.err + w.derr }

/-- The loop variable goes to its next value (R132). -/
def Work.advance (w : Work) : Work := { w with x := w.x + 1 }

/-- One iteration of the walk (R132): plot, then update; the update is not reached when the plot fails. -/
def walkStep (color : Word32) (s : State) : Run :=
  (plot s.work.point color s).andThen fun s => .going (s.withWork s.work.update)

/-- The walk (R132) with `n` iterations to go after this one. The loop variable is advanced only towards an iteration that
is made, so it ends at `X1` (log 7). -/
def walk (color : Word32) : Nat → State → Run
  | 0, s => walkStep color s
  | n + 1, s => (walkStep color s).andThen fun s => walk color n (s.withWork s.work.advance)

/-- `DrawLine(x0, y0, x1, y1, color)` (R131, R132): `dx + 1` iterations, decided before the loop starts (R143). -/
def drawLine (x0 y0 x1 y1 : Int) (color : Word32) (s : State) : Run :=
  let w := s.work.startLine x0 y0 x1 y1
  walk color w.dx.toNat (s.withWork w)

/-- R133: LINE's own rule. -/
def lineBody (x0 y0 x1 y1 color : Word32) (s : State) : State :=
  (drawLine (sint32 x0) (sint32 y0) (sint32 x1) (sint32 y1) color s).finish

/-- LINE (R133). -/
def execLine (x0 y0 x1 y1 color : Word32) (s : State) : Host.Outcome State Fault Refusal :=
  command .image (lineBody x0 y0 x1 y1 color) s

/-! ### The triangle outline -/

/-- Three points in order. -/
structure Vertices where
  v0 : Point
  v1 : Point
  v2 : Point
deriving DecidableEq, Repr

/-- `SortByX` (R139): three conditional exchanges, pairs (0,1), (0,2), (1,2), each on strict `>`. -/
def sortByX (a b c : Point) : Vertices :=
  let v : Vertices := ⟨a, b, c⟩
  let v : Vertices := if v.v0.x > v.v1.x then ⟨v.v1, v.v0, v.v2⟩ else v
  let v : Vertices := if v.v0.x > v.v2.x then ⟨v.v2, v.v1, v.v0⟩ else v
  if v.v1.x > v.v2.x then ⟨v.v0, v.v2, v.v1⟩ else v

/-- One edge of the outline (R140), its number in `EDGE`. -/
def drawEdge (e : Fin 3) (p q : Point) (color : Word32) (s : State) : Run :=
  drawLine p.x p.y q.x q.y color (s.withWork { s.work with edge := e })

/-- The outline of a triangle (R140): sort, then the three edges, closing back to the first vertex. -/
def drawTriangle (a b c : Point) (color : Word32) (s : State) : Run :=
  let v := sortByX a b c
  (drawEdge 0 v.v0 v.v1 color (s.withWork { s.work with v0 := v.v0, v1 := v.v1, v2 := v.v2 })).andThen fun s =>
    (drawEdge 1 v.v1 v.v2 color s).andThen fun s => drawEdge 2 v.v2 v.v0 color s

/-- R140: TRI's own rule. -/
def triBody (x0 y0 x1 y1 x2 y2 color : Word32) (s : State) : State :=
  (drawTriangle ⟨sint32 x0, sint32 y0⟩ ⟨sint32 x1, sint32 y1⟩ ⟨sint32 x2, sint32 y2⟩ color s).finish

/-- TRI (R140). -/
def execTri (x0 y0 x1 y1 x2 y2 color : Word32) (s : State) : Host.Outcome State Fault Refusal :=
  command .image (triBody x0 y0 x1 y1 x2 y2 color) s

/-! ### The four-neighbour painter -/

/-- One neighbour (R142), its number in `NB`. -/
def paintNeighbour (nb : Fin 4) (p : Point) (color : Word32) (s : State) : Run :=
  plot p color (s.withWork { s.work with nb := nb })

/-- The four edge-neighbours of `(x, y)` in R142's order; the sums are exact. -/
def fillNeighbours (x y : Int) (color : Word32) (s : State) : Run :=
  (paintNeighbour 0 ⟨x + 1, y⟩ color s).andThen fun s =>
    (paintNeighbour 1 ⟨x - 1, y⟩ color s).andThen fun s =>
      (paintNeighbour 2 ⟨x, y + 1⟩ color s).andThen fun s => paintNeighbour 3 ⟨x, y - 1⟩ color s

/-- R142: FILLN's own rule. -/
def fillnBody (x y color : Word32) (s : State) : State :=
  (fillNeighbours (sint32 x) (sint32 y) color s).finish

/-- FILLN (R142): illegal when `HAS_FILLN` is false (R74). -/
def execFilln (x y color : Word32) (s : State) : Host.Outcome State Fault Refusal :=
  if s.cfg.hasFilln then command .image (fillnBody x y color) s
  else illegalCommand s

end Sys2Proof.Machine
end

