-- ==== Sys2Proof/Machine/Dispatch.lean ====
section
/-! DEFINITION. The meaning of each command: one arm per constructor of Instr. -/

namespace Sys2Proof.Machine

open Sys2Proof

def exec (i : Instr) (s : State) : Host.Outcome State Fault Refusal :=
  match i with
  | .create width height name maxValue => Sys2Proof.Machine.execCreate width height name maxValue s
  | .release => Sys2Proof.Machine.execRelease s
  | .setpoint row col value => Sys2Proof.Machine.execSetpoint row col value s
  | .getpoint row col => Sys2Proof.Machine.execGetpoint row col s
  | .line x0 y0 x1 y1 color => Sys2Proof.Machine.execLine x0 y0 x1 y1 color s
  | .tri x0 y0 x1 y1 x2 y2 color => Sys2Proof.Machine.execTri x0 y0 x1 y1 x2 y2 color s
  | .filln x y color => Sys2Proof.Machine.execFilln x y color s

end Sys2Proof.Machine
end

