-- ==== Sys2Proof/Machine/Transport.lean ====
section
/-! DEFINITION. The command and response channels (30_encoding.md R78), the host's moves (00_scope.md R10) and reset
(70_reset_and_hazards.md R190, R192). -/

namespace Sys2Proof.Machine

open Sys2Proof

/-- The packet the unit accepts in this state, if it accepts one: one is presented, `PHASE == IDLE` and `HALT == 0` (R78). -/
def State.accepts (s : State) : Option Packet := if s.ready then s.chan else none

/-- Acceptance (R78): the packet leaves the channel for the operand latch `CMD`, and the unit is `BUSY`. -/
def accept (P : Packet) (s : State) : State := { s with chan := none, cmd := P, phase := .busy }

/-- Reset (R190): every piece of the unit's state goes to the value R30 gives; each word of BUF is unspecified, so each is drawn
afresh. The configuration and the host's side of the channels are not the unit's and stay (log 10). A command whose response has
not been taken is abandoned (R192). A new run starts (R194: "from the reset state"), so the host's record of the run before it is
closed (log 20). -/
def applyReset (s : State) : State :=
  { State.resetOf s.cfg with
    mem := s.mem.redraw s.cfg.memWords, chan := s.chan, host := s.host, pastRuns := s.taken :: s.pastRuns }

/-- A step in which neither agent has anything to do: an idle unit waits for a command, an offered response waits to be taken
(60_exceptions.md R185). A command offered to a halted unit that nothing resets is stuck (R174). -/
def waitOrStuck (s : State) : Host.Outcome State Fault Refusal :=
  if s.halt && s.chan.isSome && decide (s.phase = .idle) then .fault .halted else .next s

/-- The host presents no further command in this run: none before its next reset, with which another run starts (R194). -/
def noFurtherCommand : List HostMove → Bool
  | [] => true
  | .reset :: _ => true
  | .take :: moves => noFurtherCommand moves
  | .present _ :: _ => false

/-- The host's next move, when the unit accepts no command (R10, R78; log 9, log 11). A packet presented while another is
still presented waits its turn, and the moves listed behind it wait with it: before a halted unit that is the stuck state, even
when one of them is a reset (log 11). Taking when no response is offered takes nothing. -/
def hostTurn (s : State) : Host.Outcome State Fault Refusal :=
  match s.host with
  | [] => waitOrStuck s
  | .reset :: moves => .next (applyReset { s with host := moves })
  | .take :: moves =>
    if s.phase = .resp then .next (takeResponse { s with host := moves }) else .next { s with host := moves }
  | .present P :: moves =>
    match s.chan with
    | none => .next { s with chan := some P, host := moves }
    | some _ => waitOrStuck s

end Sys2Proof.Machine
end

