-- ==== Sys2Proof/Machine/Step.lean ====
section
/-! DEFINITION. One step: the unit executes the command it accepts, to completion, as one atomic step (10_state.md R31), or the
host makes its next move. -/

namespace Sys2Proof.Machine

open Sys2Proof

/-- One step. The unit goes first when it can accept a command (log 9); an illegal packet is accepted like any other and
answered IllegalCommand (R74). -/
def step (s : State) : Host.Outcome State Fault Refusal :=
  match s.accepts with
  | none => hostTurn s
  | some P =>
    match decode s.cfg P with
    | .ok i => exec i (accept P s)
    | .error _ => illegalCommand (accept P s)

/-- `s` with the packet of an opcode-table word presented on the command channel, and the unit idle and not halted so that the
very next step accepts it (R78; log 12). -/
def State.withFetchWord (s : State) (nbits w : Nat) : State :=
  { s with chan := some (packetOfTableWord nbits w), phase := .idle, halt := false }

end Sys2Proof.Machine
end

