-- ==== Sys2Proof/Machine/HostSoftware.lean ====
section
/-! DEFINITION. The host's side of a program: the textual form of a command (30_encoding.md R80), the two pseudo-operations and
the command sequences they expand into (R81; 43_host_sequences.md R161, R163), and a program as the host's moves (R78, R194).
Nothing here adds state or commands to the unit. -/

namespace Sys2Proof.Machine

open Sys2Proof

/-- Operands separated by commas (R80). -/
def commas : List String → String
  | [] => ""
  | [a] => a
  | a :: b :: rest => a ++ ", " ++ commas (b :: rest)

/-- The spec's textual form of a command (R80), operands in the source's order, in decimal. -/
def commandText : Instr → String
  | .create width height name maxValue =>
    "CREATE " ++ commas [toString name.toNat, toString width.toNat, toString height.toNat, toString maxValue.toNat]
  | .release => "RELEASE"
  | .setpoint row col value => "SETPOINT " ++ commas [toString row.toNat, toString col.toNat, toString value.toNat]
  | .getpoint row col => "GETPOINT " ++ commas [toString row.toNat, toString col.toNat]
  | .line x0 y0 x1 y1 color =>
    "LINE " ++ commas [toString x0.toInt, toString y0.toInt, toString x1.toInt, toString y1.toInt, toString color.toNat]
  | .tri x0 y0 x1 y1 x2 y2 color =>
    "TRI " ++ commas [toString x0.toInt, toString y0.toInt, toString x1.toInt, toString y1.toInt, toString x2.toInt,
      toString y2.toInt, toString color.toNat]
  | .filln x y color => "FILLN " ++ commas [toString x.toInt, toString y.toInt, toString color.toNat]

/-- `IMG.WRITE` (R161): `WIDTH*HEIGHT` GETPOINTs in row-major order, dimensions from the status outputs. -/
def imgWrite (o : Outputs) : List Instr :=
  (List.range o.height.toNat).flatMap fun row =>
    (List.range o.width.toNat).map fun col => .getpoint (BitVec.ofNat 32 row) (BitVec.ofNat 32 col)

/-- The pixel phase of `IMG.READ` (R163): one SETPOINT per token while `row < height`; a token's low 32 bits are passed. -/
def imgReadPixels (width height : Nat) : List Nat → Nat → Nat → List Instr
  | [], _, _ => []
  | t :: tokens, row, col =>
    if row < height then
      .setpoint (BitVec.ofNat 32 row) (BitVec.ofNat 32 col) (BitVec.ofNat 32 t) ::
        (if col + 1 = width then imgReadPixels width height tokens (row + 1) 0
         else imgReadPixels width height tokens row (col + 1))
    else []

/-- `IMG.READ` (R81, R162, R163) once its header has parsed: a CREATE, then the pixel phase. -/
def imgRead (name width height maxValue : Word32) (tokens : List Nat) : List Instr :=
  .create width height name maxValue :: imgReadPixels width.toNat height.toNat tokens 0 0

/-- A program as the host runs it: present each packet, then take its response before the next (R78, R195). -/
def runMoves (packets : List Packet) : List HostMove := packets.flatMap fun P => [.present P, .take]

/-- A sequence of command lines (R80) as the host runs it. -/
def programMoves (program : List Instr) : List HostMove := runMoves (program.map encode)

end Sys2Proof.Machine
end

