-- ==== Sys2Proof/Machine/PlotOrder.lean ====
section
/-! DEFINITION. The points a rasterizer command plots, in order, faults ignored: "that is, as a list of plotted points"
(42_rasterizer.md R134). Pure functions over the same line engine; no step uses them. Statements about what LINE, TRI and FILLN
draw are made with them. -/

namespace Sys2Proof.Machine

open Sys2Proof

/-- The working registers at each plot of a walk with `n` iterations to go after the first (R132). -/
def lineTrace : Nat → Work → List Work
  | 0, w => [w]
  | n + 1, w => w :: lineTrace n w.update.advance

/-- The working registers at the start of a line (R131). -/
def lineStart (x0 y0 x1 y1 : Int) : Work := Work.reset.startLine x0 y0 x1 y1

/-- The points of `DrawLine`, in plot order (R132). -/
def linePoints (x0 y0 x1 y1 : Int) : List Point :=
  (lineTrace (lineStart x0 y0 x1 y1).dx.toNat (lineStart x0 y0 x1 y1)).map Work.point

/-- The points of the triangle outline, in plot order (R140). -/
def trianglePoints (a b c : Point) : List Point :=
  let v := sortByX a b c
  linePoints v.v0.x v.v0.y v.v1.x v.v1.y ++ linePoints v.v1.x v.v1.y v.v2.x v.v2.y
    ++ linePoints v.v2.x v.v2.y v.v0.x v.v0.y

/-- The four neighbours of R142, in plot order. -/
def neighbourPoints (x y : Int) : List Point := [⟨x + 1, y⟩, ⟨x - 1, y⟩, ⟨x, y + 1⟩, ⟨x, y - 1⟩]

/-- The pixels `(row, col)` a command writes, in order, when none is out of bounds, with the byte it writes. -/
def commandPixels (m : AxisMap) : Instr → List (Int × Int)
  | .create _ _ _ _ => []
  | .release => []
  | .setpoint row col _ => [(uint32 row, uint32 col)]
  | .getpoint _ _ => []
  | .line x0 y0 x1 y1 _ => (linePoints (sint32 x0) (sint32 y0) (sint32 x1) (sint32 y1)).map (pixelOf m)
  | .tri x0 y0 x1 y1 x2 y2 _ =>
    (trianglePoints ⟨sint32 x0, sint32 y0⟩ ⟨sint32 x1, sint32 y1⟩ ⟨sint32 x2, sint32 y2⟩).map (pixelOf m)
  | .filln x y _ => (neighbourPoints (sint32 x) (sint32 y)).map (pixelOf m)

end Sys2Proof.Machine
end

