-- ==== Sys2Proof/Safety.lean ====
section
/-! DEFINITION. What claims are made of: the invariants of 10_state.md R29, the ranges of the working registers (R26), the end of
a run (70_reset_and_hazards.md R194), and the words in which a command's result and frame are said. -/

namespace Sys2Proof

open Sys2Proof.Machine

/-- The invariants of R29 (a) to (c), with the form of BUF's listed lanes: between steps, in every reachable state. -/
structure Inv (s : State) : Prop where
  /-- R29 (a): no image, no descriptor. -/
  noImage : s.live = false → s.width = 0 ∧ s.height = 0 ∧ s.maxval = 0 ∧ s.name = 0
  /-- R29 (b): a buffer fits BUF. -/
  fits : s.alloc = true → 1 ≤ s.size ∧ s.size ≤ s.cfg.memWords
  /-- R29 (c), with R78: between commands the unit is not `BUSY`; it is `IDLE`, or its response waits to be taken. -/
  notBusy : s.phase ≠ .busy
  /-- The listed lanes are in canonical form. -/
  canonical : s.mem.wf
  /-- R25: every listed lane is a lane of one of the `MEM_WORDS` words. -/
  inside : ∀ c ∈ s.mem.cells, c.1 < 8 * s.cfg.memWords

/-- A 32-bit signed value (R26, R73). -/
abbrev Fits32 (v : Int) : Prop := -2 ^ 31 ≤ v ∧ v < 2 ^ 31

/-- The working registers hold what their widths in R26 and R138 allow. `Y` may be one step beyond the last pixel (log 7), and
R26's range of `ERR` is empty for `DX = 0`, where `ERR` is 0 (log 8). -/
structure WorkFits (w : Work) : Prop where
  ends : Fits32 w.x0 ∧ Fits32 w.y0 ∧ Fits32 w.x1 ∧ Fits32 w.y1
  dx : w.dx = w.x1 - w.x0 ∧ 0 ≤ w.dx ∧ w.dx ≤ 2 ^ 32 - 1
  derr : w.derr = 2 * (w.y1 - w.y0).natAbs ∧ 0 ≤ w.derr ∧ w.derr ≤ 2 * w.dx
  ystep : w.ystep = sgn (w.y1 - w.y0)
  err : (w.dx = 0 ∧ w.err = 0) ∨ (0 < w.dx ∧ -w.dx + 1 ≤ w.err ∧ w.err ≤ w.dx)
  x : w.x0 ≤ w.x ∧ w.x ≤ w.x1
  y : -2 ^ 31 - 1 ≤ w.y ∧ w.y ≤ 2 ^ 31
  vertices : Fits32 w.v0.x ∧ Fits32 w.v0.y ∧ Fits32 w.v1.x ∧ Fits32 w.v1.y ∧ Fits32 w.v2.x ∧ Fits32 w.v2.y

/-- The current run has ended: the host has taken the response to the run's last command and `PHASE == IDLE` (R194). A run is the
commands presented from one reset state to the next, so a reset starts another, which has a last command once one is answered. "A
run that reaches `HALT == 1` never ends" (R174: "never final"). A run that a reset cuts short never ends, and neither does one
without a command: the model's choice, R194 says nothing of the first and names no last command of the second (log 20). -/
structure RunEnded (s : State) : Prop where
  idle : s.phase = .idle
  running : s.halt = false
  /-- No command of the run is still to come: none is presented, and the host presents none before it next asserts reset. -/
  noneWaiting : s.chan = none
  noneToCome : noFurtherCommand s.host = true
  /-- There was a last command, and its response is taken. -/
  answered : s.taken ≠ []

/-- The current run has ended *cleanly* (R194): besides, every response of the run was OK, `HALT == 0` and `LIVE == 0`. The
responses of earlier runs do not count. -/
def RunEndedCleanly (s : State) : Prop :=
  RunEnded s ∧ (∀ Q ∈ s.taken, rspStatus Q = Status.ok.code) ∧ s.halt = false ∧ s.live = false

/-! ### A command's result and frame -/

/-- The response offered: `status`, `data`, and `frow`, `fcol` as the low 32 bits of `row`, `col` (30_encoding.md R76). -/
structure Answers (t : State) (status : Status) (data : Byte) (row col : Int) : Prop where
  offered : t.phase = .resp
  status : rspStatus t.rsp = status.code
  data : rspData t.rsp = data
  frow : rspFrow t.rsp = low32 row
  fcol : rspFcol t.rsp = low32 col

/-- What no command writes: the configuration, the operand latch, and the host's side of the channels. -/
structure SameOutside (s t : State) : Prop where
  cfg : t.cfg = s.cfg
  cmd : t.cmd = s.cmd
  chan : t.chan = s.chan
  host : t.host = s.host
  taken : t.taken = s.taken
  pastRuns : t.pastRuns = s.pastRuns

/-- The lifecycle flags and the descriptor are unchanged (R22, R23). -/
structure SameDescriptor (s t : State) : Prop where
  live : t.live = s.live
  halt : t.halt = s.halt
  width : t.width = s.width
  height : t.height = s.height
  maxval : t.maxval = s.maxval
  name : t.name = s.name

/-- Every lane of every word of BUF reads as before. -/
def SameBuf (s t : State) : Prop := ∀ i k, k < 8 → t.mem.lane i k = s.mem.lane i k

/-- The lane of each of these pixels holds `b`, and every other lane of every word reads as before. The address of a pixel is
computed by the model's own `pixelAddr`, on the state the command starts from. -/
structure WritesPixels (pixels : List (Int × Int)) (b : Byte) (s t : State) : Prop where
  written : ∀ p ∈ pixels, t.mem.lane (pixelAddr s p.1 p.2).word ((pixelAddr s p.1 p.2).bit / 8) = b
  others : ∀ i k, k < 8 → (∀ p ∈ pixels, pixelAddr s p.1 p.2 ≠ ⟨i, 8 * k⟩) → t.mem.lane i k = s.mem.lane i k

/-- The lifecycle table of R110, by command: where it proceeds. -/
def lifecycleProceeds (s : State) : Instr → Bool
  | .create _ _ _ _ => !(s.live && s.alloc)
  | .release => s.live
  | .setpoint _ _ _ => s.live
  | .getpoint _ _ => s.live
  | .line _ _ _ _ _ => s.live
  | .tri _ _ _ _ _ _ _ => s.live
  | .filln _ _ _ => s.live

/-- A rasterizer command with the colour it draws with. -/
def rasterColor : Instr → Option Word32
  | .create _ _ _ _ => none
  | .release => none
  | .setpoint _ _ _ => none
  | .getpoint _ _ => none
  | .line _ _ _ _ color => some color
  | .tri _ _ _ _ _ _ color => some color
  | .filln _ _ color => some color

/-- An illegal packet, by the grounds of R74: (a) its opcode, (b) `rsv0`, (c) a word that R71 marks with a dash. -/
def IllegalPacket (p : Params) (P : Packet) : Prop :=
  let op := packetOpcode P
  let w := packetWord P
  (op = 0x00 ∨ 0x08 ≤ op.toNat ∨ (op = 0x07 ∧ p.hasFilln = false))
  ∨ packetRsv0 P ≠ 0
  ∨ (op = 0x01 ∧ (w 4 ≠ 0 ∨ w 5 ≠ 0 ∨ w 6 ≠ 0))
  ∨ (op = 0x02 ∧ (w 1 ≠ 0 ∨ w 2 ≠ 0 ∨ w 3 ≠ 0 ∨ w 4 ≠ 0 ∨ w 5 ≠ 0 ∨ w 6 ≠ 0 ∨ w 7 ≠ 0))
  ∨ (op = 0x03 ∧ (w 3 ≠ 0 ∨ w 4 ≠ 0 ∨ w 5 ≠ 0 ∨ w 6 ≠ 0))
  ∨ (op = 0x04 ∧ (w 3 ≠ 0 ∨ w 4 ≠ 0 ∨ w 5 ≠ 0 ∨ w 6 ≠ 0 ∨ w 7 ≠ 0))
  ∨ (op = 0x05 ∧ (w 5 ≠ 0 ∨ w 6 ≠ 0))
  ∨ (op = 0x07 ∧ (w 3 ≠ 0 ∨ w 4 ≠ 0 ∨ w 5 ≠ 0 ∨ w 6 ≠ 0))

/-- The closed form of R135: the minor offset `s_k` of the `k`-th point of a line with these `dx` and `|dy|`. -/
def minorOffset (dx absDy k : Int) : Int :=
  if dx = 0 then 0 else (2 * absDy * k + dx - 1) / (2 * dx)

end Sys2Proof
end

