-- ==== Sys2Proof/Certificates/Slice0/Obligations.lean ====
section
/-! DEFINITION. The statements for the provers. Each docstring says which rule of spec/ it formalises. A statement that says
"for every state" ranges over every configuration too, since State carries `MEM_WORDS`, `AXIS_MAP` and `HAS_FILLN`. -/

open Sys2Proof Sys2Proof.Machine

/-! ### Encoding (30_encoding.md) -/

/-- Decode and encode agree on every command a configuration has, every operand at every value (R70 to R73). -/
def Obligations.EncodeThenDecodeReturnsTheCommand : Prop :=
  ∀ (p : Params) (i : Instr), i.wellFormed p = true → decode p (encode i) = .ok i

/-- The other direction: a legal packet is the encoding of the command it decodes to, so no bit of it is ignored (R74: a
non-zero reserved bit is illegal). -/
def Obligations.DecodedPacketIsTheEncodingOfItsCommand : Prop :=
  ∀ (p : Params) (P : Packet) (i : Instr), decode p P = .ok i → encode i = P ∧ i.wellFormed p = true

/-- R72: the match and mask of each command over the 256-bit packet, and the opcodes that select none. -/
def Obligations.PacketSelectsACommandByMatchAndMask : Prop :=
  ∀ (p : Params) (P : Packet),
    ((∃ w h n m, decode p P = .ok (.create w h n m)) ↔
      P &&& 0x00000000FFFFFFFFFFFFFFFFFFFFFFFF000000000000000000000000FFFFFFFF#256 = 0x01#256) ∧
    (decode p P = .ok .release ↔
      P &&& 0xFFFFFFFFFFFFFFFFFFFFFFFFFFFFFFFFFFFFFFFFFFFFFFFFFFFFFFFFFFFFFFFF#256 = 0x02#256) ∧
    ((∃ r c v, decode p P = .ok (.setpoint r c v)) ↔
      P &&& 0x00000000FFFFFFFFFFFFFFFFFFFFFFFFFFFFFFFF0000000000000000FFFFFFFF#256 = 0x03#256) ∧
    ((∃ r c, decode p P = .ok (.getpoint r c)) ↔
      P &&& 0xFFFFFFFFFFFFFFFFFFFFFFFFFFFFFFFFFFFFFFFF0000000000000000FFFFFFFF#256 = 0x04#256) ∧
    ((∃ a b c d v, decode p P = .ok (.line a b c d v)) ↔
      P &&& 0x00000000FFFFFFFFFFFFFFFF00000000000000000000000000000000FFFFFFFF#256 = 0x05#256) ∧
    ((∃ a b c d e f v, decode p P = .ok (.tri a b c d e f v)) ↔
      P &&& 0x00000000000000000000000000000000000000000000000000000000FFFFFFFF#256 = 0x06#256) ∧
    ((∃ x y v, decode p P = .ok (.filln x y v)) ↔
      p.hasFilln = true ∧
        P &&& 0x00000000FFFFFFFFFFFFFFFFFFFFFFFFFFFFFFFF0000000000000000FFFFFFFF#256 = 0x07#256) ∧
    ((packetOpcode P = 0x00 ∨ 0x08 ≤ (packetOpcode P).toNat ∨ (packetOpcode P = 0x07 ∧ p.hasFilln = false)) →
      ∀ i, decode p P ≠ .ok i)

/-- Words written out from R82, R111, R114, R133, R140 and 95_test_vectors.md V9 decode to the commands they stand for. -/
def Obligations.SampleWordsDecodeToTheirCommands : Prop :=
  decodeTableWord 256 0x0000012300000000000000000000000000000000000000030000000100000003
      = some (.setpoint 1 3 0x123) ∧
  decodeTableWord 256 0x000000FF0000000000000000000000000000000000000002_0000000A_00000001
      = some (.create 10 2 0 255) ∧
  decodeTableWord 256 0x02 = some .release ∧
  decodeTableWord 256 0x00000000_00000000_00000000_00000000_00000000_00000003_00000001_00000004
      = some (.getpoint 1 3) ∧
  decodeTableWord 256 0x000001FF_00000000_00000000_00000005_0000000A_00000000_00000000_00000005
      = some (.line 0 0 10 5 0x1FF) ∧
  decodeTableWord 256 0x00000007_0000000A_00000005_00000000_0000000A_00000000_00000000_00000006
      = some (.tri 0 0 10 0 5 10 7) ∧
  decodeTableWord 256 0x000000AB_00000000_00000000_00000000_00000000_00000001_00000001_00000007
      = some (.filln 1 1 0xAB) ∧
  decodeTableWord 256 0x00 = none ∧ decodeTableWord 256 0x0101 = none

/-- R74 with R176: an illegal packet is accepted like any other, changes no state but the latch and the channel it was accepted
from, and is answered IllegalCommand; every other packet decodes. -/
def Obligations.IllegalPacketChangesNothing : Prop :=
  (∀ (s : State) (P : Packet), s.accepts = some P → IllegalPacket s.cfg P →
    ∃ t, step s = .next t ∧ Answers t .illegalCommand 0 0 0 ∧ SameDescriptor s t ∧ t.mem = s.mem ∧ t.work = s.work ∧
      t.cfg = s.cfg ∧ t.host = s.host ∧ t.taken = s.taken ∧ t.pastRuns = s.pastRuns ∧ t.cmd = P ∧ t.chan = none) ∧
  (∀ (p : Params) (P : Packet), ¬ IllegalPacket p P → ∃ i, decode p P = .ok i) ∧
  (∀ p : Params, IllegalPacket p 0)

/-- When the unit accepts a packet that decodes to `i`, the step is `exec i` of the state in which the packet has left the
channel for the latch and the unit is BUSY (30_encoding.md R78). That the unit accepts at once, whatever the host's next move, is the
model's choice (log 9). -/
def Obligations.StepRunsTheDecodedCommand : Prop :=
  ∀ (s : State) (P : Packet) (i : Instr), s.phase = .idle → s.halt = false → s.chan = some P → decode s.cfg P = .ok i →
    step s = exec i { s with chan := none, cmd := P, phase := .busy }

/-- R76: the response packet to every accepted packet, legal or not, and of every command, bit by bit: the status is one of the five
codes, the unused bits are zero, `data` is zero but for an OK GETPOINT, `frow` and `fcol` are zero unless the status is
OutOfBounds. -/
def Obligations.EveryResponseHasTheFormOfR76 : Prop :=
  (∀ (s : State) (P : Packet), s.accepts = some P →
    ∃ t, step s = .next t ∧ t.phase = .resp ∧
      (rspStatus t.rsp).toNat ≤ 4 ∧
      t.rsp.extractLsb' 16 16 = 0 ∧ t.rsp.extractLsb' 96 32 = 0 ∧
      (rspData t.rsp ≠ 0 → rspStatus t.rsp = 0x00 ∧ ∃ r c, decode s.cfg P = .ok (.getpoint r c)) ∧
      (rspStatus t.rsp ≠ 0x01 → rspFrow t.rsp = 0 ∧ rspFcol t.rsp = 0)) ∧
  (∀ (i : Instr) (s t : State), exec i s = .next t →
    t.phase = .resp ∧
    (rspStatus t.rsp).toNat ≤ 4 ∧
    t.rsp.extractLsb' 16 16 = 0 ∧ t.rsp.extractLsb' 96 32 = 0 ∧
    (rspData t.rsp ≠ 0 → rspStatus t.rsp = 0x00 ∧ ∃ r c, i = .getpoint r c) ∧
    (rspStatus t.rsp ≠ 0x01 → rspFrow t.rsp = 0 ∧ rspFcol t.rsp = 0))

/-! ### Index decoder and lane datapath (40_index_lane.md) -/

/-- R92: the hardware form of the index, on bit slices, and the 3-to-8 lane decoder. -/
def Obligations.IndexHasItsHardwareForm : Prop :=
  ∀ width row col : Word32,
    let a := index width.toNat row.toNat col.toNat
    strideOf width.toNat = (width.extractLsb' 3 29).toNat + 1 ∧
    a.word = row.toNat * ((width.extractLsb' 3 29).toNat + 1) + (col.extractLsb' 3 29).toNat ∧
    a.bit = (col.extractLsb' 0 3 ++ 0b000#3).toNat ∧
    a.word < 2 ^ 61 ∧
    ∀ k < 8, laneExtract (laneMask a.bit) (8 * k) = if (col.extractLsb' 0 3).toNat = k then 0xFF else 0x00

/-- R98: the index of an in-bounds pixel is inside the image's buffer, and there is a buffer. The invariant rules out the states
no run reaches. -/
def Obligations.IndexStaysInsideTheBuffer : Prop :=
  ∀ (s : State) (row col : Int), Inv s → inBounds s row col = true →
    s.alloc = true ∧ (pixelAddr s row col).word < s.size ∧ s.size ≤ s.cfg.memWords ∧ (pixelAddr s row col).word < 2 ^ 61

/-- R99: the index is injective on in-bounds pixels; distinct pixels occupy disjoint lanes. -/
def Obligations.IndexIsInjectiveOnThePixels : Prop :=
  ∀ (s : State) (r c r' c' : Int), inBounds s r c = true → inBounds s r' c' = true →
    (pixelAddr s r c = pixelAddr s r' c' ↔ r = r' ∧ c = c') ∧
    (¬ (r = r' ∧ c = c') →
      (pixelAddr s r c).word ≠ (pixelAddr s r' c').word ∨
      (pixelAddr s r c).bit + 8 ≤ (pixelAddr s r' c').bit ∨ (pixelAddr s r' c').bit + 8 ≤ (pixelAddr s r c).bit)

/-- R100: the packing laws of the lane datapath, (a) to (c), and (d) of the two pixel primitives. -/
def Obligations.LanesArePackedIndependently : Prop :=
  (∀ (w : Word64) (k : Nat) (v : Word32), k < 8 →
    (laneExtract (laneInsert w (8 * k) v) (8 * k)).toNat = v.toNat % 256) ∧
  (∀ (w : Word64) (k k' : Nat) (v : Word32), k < 8 → k' < 8 → k' ≠ k →
    laneExtract (laneInsert w (8 * k) v) (8 * k') = laneExtract w (8 * k')) ∧
  (∀ (w : Word64) (k : Nat) (v1 v2 : Word32), k < 8 →
    laneInsert (laneInsert w (8 * k) v1) (8 * k) v2 = laneInsert w (8 * k) v2) ∧
  (∀ (s t : State) (r c : Int) (v : Word32), setPoint r c v s = .going t →
    (∃ b, getPoint r c t = some b ∧ b.toNat = v.toNat % 256) ∧
    (∀ r' c', inBounds s r' c' = true → ¬ (r' = r ∧ c' = c) → getPoint r' c' t = getPoint r' c' s))

/-- R96: SetPoint reads the pixel's word, inserts the lane and writes the word back; out of bounds it writes nothing. -/
def Obligations.SetPointReadsInsertsAndWritesTheWord : Prop :=
  ∀ (s : State) (row col : Int) (value : Word32),
    (inBounds s row col = true → ∃ t, setPoint row col value s = .going t ∧
      (∀ j, t.mem.readWord j =
        (s.mem.writeWord (pixelAddr s row col).word
          (laneInsert (s.mem.readWord (pixelAddr s row col).word) (pixelAddr s row col).bit value)).readWord j) ∧
      SameDescriptor s t ∧ SameOutside s t ∧ t.phase = s.phase ∧ t.rsp = s.rsp ∧ t.work = s.work) ∧
    (inBounds s row col = false → setPoint row col value s = .failed row col s)

/-- R97: GetPoint extracts the pixel's lane of the word it reads. -/
def Obligations.GetPointExtractsTheLaneOfTheWord : Prop :=
  ∀ (s : State) (row col : Int),
    getPoint row col s =
      if 0 ≤ row ∧ row < s.height.toNat ∧ 0 ≤ col ∧ col < s.width.toNat then
        some (laneExtract (s.mem.readWord (row.toNat * s.stride + col.toNat / 8)) (8 * (col.toNat % 8)))
      else none

/-- 20_memory.md R50, R59: a MemRead returns the latest MemWrite of its word, and a MemWrite leaves every other word alone. -/
def Obligations.MemReadReturnsTheLatestMemWrite : Prop :=
  ∀ (m : Memory) (i j : Nat) (w : Word64), (m.writeWord i w).readWord j = if j = i then w else m.readWord j

/-- R101: which lanes of a row's words are pixels, and that a command other than CREATE writes no other lane. -/
def Obligations.SpareLanesAreNeverWritten : Prop :=
  (∀ (s : State) (r j k : Nat), r < s.height.toNat → j < s.stride → k < 8 →
    ((∃ row col, inBounds s row col = true ∧ pixelAddr s row col = ⟨r * s.stride + j, 8 * k⟩) ↔
      8 * j + k < s.width.toNat)) ∧
  (∀ (i : Instr) (s t : State) (word k : Nat), k < 8 → exec i s = .next t → (∀ w h n m, i ≠ .create w h n m) →
    (∀ row col, inBounds s row col = true → pixelAddr s row col ≠ ⟨word, 8 * k⟩) →
    t.mem.lane word k = s.mem.lane word k)

/-! ### Pixel-store commands (41_pixel_commands.md) -/

/-- R111, its completion: CREATE with no buffer held and room for the image holds the operands in the descriptor, makes STRIDE,
ALLOC and SIZE follow, and draws each word of the image afresh (R28): the draw has a number that no draw so far has, and one more
draw has been made (numbered draws are log 3). The words beyond keep what they hold. -/
def Obligations.CreateMakesTheImage : Prop :=
  ∀ (s : State) (w h n m : Word32), s.halt = false → s.alloc = false → needOf w.toNat h.toNat ≤ s.cfg.memWords →
    ∃ t, exec (.create w h n m) s = .next t ∧ Answers t .ok 0 0 0 ∧ SameOutside s t ∧
      t.live = true ∧ t.halt = false ∧ t.width = w ∧ t.height = h ∧ t.maxval = m ∧ t.name = n ∧
      t.stride = w.toNat / 8 + 1 ∧ (t.alloc = true ↔ 0 < w.toNat * h.toNat) ∧
      t.size = (if 0 < w.toNat * h.toNat then h.toNat * (w.toNat / 8 + 1) else 0) ∧
      (∀ i, drawNumber s.mem.draws i < s.mem.draws.length + 1) ∧
      (∀ i, i < t.size → t.mem.readWord i = Config.draw (s.mem.draws.length + 1) i) ∧
      t.mem.draws = (if 0 < t.size then t.size :: s.mem.draws else s.mem.draws) ∧
      (∀ i k, k < 8 → t.size ≤ i → t.mem.lane i k = s.mem.lane i k) ∧
      t.work = s.work

/-- R111, R174: CREATE that needs more than `MEM_WORDS` words sets HALT and nothing else, and answers AllocationFailure. -/
def Obligations.CreateBeyondCapacityHaltsTheUnit : Prop :=
  ∀ (s : State) (w h n m : Word32), s.halt = false → s.alloc = false → s.cfg.memWords < needOf w.toNat h.toNat →
    ∃ t, exec (.create w h n m) s = .next t ∧ Answers t .allocationFailure 0 0 0 ∧ SameOutside s t ∧
      t.halt = true ∧ t.live = s.live ∧ t.width = s.width ∧ t.height = s.height ∧ t.maxval = s.maxval ∧
      t.name = s.name ∧ t.mem = s.mem ∧ t.work = s.work

/-- R112, its completion: RELEASE of a held image clears LIVE and the descriptor and leaves BUF alone. -/
def Obligations.ReleaseDestroysTheImage : Prop :=
  ∀ s : State, s.halt = false → s.live = true →
    ∃ t, exec .release s = .next t ∧ Answers t .ok 0 0 0 ∧ SameOutside s t ∧
      t.live = false ∧ t.width = 0 ∧ t.height = 0 ∧ t.maxval = 0 ∧ t.name = 0 ∧ t.alloc = false ∧ t.size = 0 ∧
      t.halt = false ∧ t.mem = s.mem ∧ t.work = s.work

/-- R110, R175: a command is answered InvalidState exactly when the lifecycle table forbids it, and it then changes nothing. The
premise is that the command exists in the configuration; an absent FILLN is illegal before it is anything else. -/
def Obligations.InvalidStateExactlyByTheLifecycleTable : Prop :=
  ∀ (i : Instr) (s : State), s.halt = false → i.wellFormed s.cfg = true →
    ∃ t, exec i s = .next t ∧
      (rspStatus t.rsp = Status.invalidState.code ↔ lifecycleProceeds s i = false) ∧
      (lifecycleProceeds s i = false →
        Answers t .invalidState 0 0 0 ∧ SameDescriptor s t ∧ SameOutside s t ∧ t.mem = s.mem ∧ t.work = s.work)

/-- R113, its completion: SETPOINT in bounds writes the value's low byte to the pixel's lane and nothing else. -/
def Obligations.SetpointWritesOneLane : Prop :=
  ∀ (s : State) (r c v : Word32), s.halt = false → s.live = true → r.toNat < s.height.toNat → c.toNat < s.width.toNat →
    ∃ t, exec (.setpoint r c v) s = .next t ∧ Answers t .ok 0 0 0 ∧ SameDescriptor s t ∧ SameOutside s t ∧ t.work = s.work ∧
      (t.mem.lane (r.toNat * s.stride + c.toNat / 8) (c.toNat % 8)).toNat = v.toNat % 256 ∧
      (∀ i k, k < 8 → ¬ (i = r.toNat * s.stride + c.toNat / 8 ∧ k = c.toNat % 8) → t.mem.lane i k = s.mem.lane i k)

/-- R114, its completion: GETPOINT in bounds answers the lane's byte and changes nothing; a never-written lane reads as its free
value, which is no fault. -/
def Obligations.GetpointReturnsTheByte : Prop :=
  ∀ (s : State) (r c : Word32), s.halt = false → s.live = true → r.toNat < s.height.toNat → c.toNat < s.width.toNat →
    ∃ t, exec (.getpoint r c) s = .next t ∧
      Answers t .ok (laneExtract (s.mem.readWord (r.toNat * s.stride + c.toNat / 8)) (8 * (c.toNat % 8))) 0 0 ∧
      SameDescriptor s t ∧ SameOutside s t ∧ t.mem = s.mem ∧ t.work = s.work

/-- R113, R114, R173: outside the image both answer OutOfBounds with the pixel and change nothing. -/
def Obligations.PixelAccessOutsideTheImageIsReported : Prop :=
  ∀ (s : State) (r c v : Word32), s.halt = false → s.live = true →
    (s.height.toNat ≤ r.toNat ∨ s.width.toNat ≤ c.toNat) →
    ∀ i, (i = .setpoint r c v ∨ i = .getpoint r c) →
      ∃ t, exec i s = .next t ∧ Answers t .outOfBounds 0 r.toNat c.toNat ∧ SameDescriptor s t ∧ SameOutside s t ∧
        t.mem = s.mem ∧ t.work = s.work

/-- R115: SETPOINT depends on its value only through the value modulo 256. -/
def Obligations.SetpointUsesTheValueModulo256 : Prop :=
  ∀ (s : State) (r c v1 v2 : Word32), v1.toNat % 256 = v2.toNat % 256 →
    exec (.setpoint r c v1) s = exec (.setpoint r c v2) s

/-! ### The rasterizer (42_rasterizer.md) -/

/-- R131: the normalisation of a line: the steep flag, the steep swap, the endpoint swap (only on strict `>`), and what is
computed from the two ends. -/
def Obligations.LineIsNormalisedAsR131Says : Prop :=
  ∀ x0 y0 x1 y1 : Int,
    let w := lineStart x0 y0 x1 y1
    let steep := (x0 - x1).natAbs < (y0 - y1).natAbs
    (w.steep = true ↔ steep) ∧
    (¬ steep → x0 ≤ x1 → (w.x0 = x0 ∧ w.y0 = y0 ∧ w.x1 = x1 ∧ w.y1 = y1)) ∧
    (¬ steep → x1 < x0 → (w.x0 = x1 ∧ w.y0 = y1 ∧ w.x1 = x0 ∧ w.y1 = y0)) ∧
    (steep → y0 ≤ y1 → (w.x0 = y0 ∧ w.y0 = x0 ∧ w.x1 = y1 ∧ w.y1 = x1)) ∧
    (steep → y1 < y0 → (w.x0 = y1 ∧ w.y0 = x1 ∧ w.x1 = y0 ∧ w.y1 = x0)) ∧
    w.dx = w.x1 - w.x0 ∧ w.derr = 2 * (w.y1 - w.y0).natAbs ∧ ((w.y1 - w.y0).natAbs : Int) ≤ w.dx ∧
    (w.y0 < w.y1 → w.ystep = 1) ∧ (w.y0 = w.y1 → w.ystep = 0) ∧ (w.y1 < w.y0 → w.ystep = -1)

/-- R134: the laws of the list of points a line plots: (a) their number, (b) the two ends, (c) consecutive points, (d) the
accumulator, (e) a line with `dy = 0`, (f) the minor coordinate is monotonic. -/
def Obligations.LinePointLaws : Prop :=
  ∀ x0 y0 x1 y1 : Int,
    let w := lineStart x0 y0 x1 y1
    let pts := linePoints x0 y0 x1 y1
    let trace := lineTrace w.dx.toNat w
    let major : Point → Int := fun p => if w.steep then p.y else p.x
    let minor : Point → Int := fun p => if w.steep then p.x else p.y
    (pts.length : Int) = max (x0 - x1).natAbs (y0 - y1).natAbs + 1 ∧
    (∃ p q : Point, pts.head? = some p ∧ pts.getLast? = some q ∧ major p ≤ major q ∧
      ((p = ⟨x0, y0⟩ ∧ q = ⟨x1, y1⟩) ∨ (p = ⟨x1, y1⟩ ∧ q = ⟨x0, y0⟩))) ∧
    pts.IsChain (fun p q => major q = major p + 1 ∧ (minor q = minor p ∨ minor q = minor p + w.ystep)) ∧
    (∀ u ∈ trace, u.err + u.derr ≤ 3 * w.dx ∧ (0 < w.dx → -w.dx < u.update.err ∧ u.update.err ≤ w.dx)) ∧
    (w.ystep = 0 → ∀ u ∈ trace, u.derr = 0 ∧ u.err = 0 ∧ u.y = w.y) ∧
    (w.ystep = 1 → pts.IsChain (fun p q => minor p ≤ minor q)) ∧
    (w.ystep = -1 → pts.IsChain (fun p q => minor q ≤ minor p))

/-- R135: the closed form of the `k`-th point, with `s_k` as a floor (`minorOffset`) and as a ceiling (`-(-a / b)`). -/
def Obligations.LineClosedForm : Prop :=
  ∀ (x0 y0 x1 y1 : Int) (k : Nat),
    let w := lineStart x0 y0 x1 y1
    (k : Int) ≤ w.dx →
    let major := w.x0 + k
    let minor := w.y0 + w.ystep * minorOffset w.dx (w.y1 - w.y0).natAbs k
    (linePoints x0 y0 x1 y1)[k]? = some (if w.steep then ⟨minor, major⟩ else ⟨major, minor⟩) ∧
    minorOffset w.dx (w.y1 - w.y0).natAbs 0 = 0 ∧
    minorOffset w.dx (w.y1 - w.y0).natAbs w.dx = (w.y1 - w.y0).natAbs ∧
    (0 < w.dx → minorOffset w.dx (w.y1 - w.y0).natAbs k = -((w.dx - 2 * (w.y1 - w.y0).natAbs * k) / (2 * w.dx)))

/-- R136: swapped endpoints plot the same points in the same order, and the whole command is the same. -/
def Obligations.LineIsSymmetricInItsEndpoints : Prop :=
  (∀ x0 y0 x1 y1 : Int, linePoints x0 y0 x1 y1 = linePoints x1 y1 x0 y0) ∧
  (∀ (s : State) (x0 y0 x1 y1 color : Word32), exec (.line x0 y0 x1 y1 color) s = exec (.line x1 y1 x0 y0 color) s)

/-- R137: every point lies in the rectangle the two operand points span, and LINE answers OutOfBounds if and only if one of its
two operand points is out of bounds under the `AXIS_MAP` mapping. -/
def Obligations.LineFaultsExactlyAtItsEndpoints : Prop :=
  (∀ (x0 y0 x1 y1 : Int), ∀ p ∈ linePoints x0 y0 x1 y1,
    min x0 x1 ≤ p.x ∧ p.x ≤ max x0 x1 ∧ min y0 y1 ≤ p.y ∧ p.y ≤ max y0 y1) ∧
  (∀ (s : State) (x0 y0 x1 y1 color : Word32), s.halt = false → s.live = true →
    let a := pixelOf s.cfg.axisMap ⟨x0.toInt, y0.toInt⟩
    let b := pixelOf s.cfg.axisMap ⟨x1.toInt, y1.toInt⟩
    ∃ t, exec (.line x0 y0 x1 y1 color) s = .next t ∧
      (rspStatus t.rsp = Status.outOfBounds.code ↔ ¬ (inBounds s a.1 a.2 = true ∧ inBounds s b.1 b.2 = true)))

/-- R133, its completion: LINE with both operand points in the image plots exactly the points of the walk, with the colour's
low byte; it leaves the descriptor and the other commands' working registers alone. That X ends on the last point, not beyond, is
the model's choice (log 7). -/
def Obligations.LineDrawsItsPoints : Prop :=
  ∀ (s : State) (x0 y0 x1 y1 color : Word32), s.halt = false → s.live = true →
    (let a := pixelOf s.cfg.axisMap ⟨x0.toInt, y0.toInt⟩
     let b := pixelOf s.cfg.axisMap ⟨x1.toInt, y1.toInt⟩
     inBounds s a.1 a.2 = true ∧ inBounds s b.1 b.2 = true) →
    let w := lineStart x0.toInt y0.toInt x1.toInt y1.toInt
    ∃ t, exec (.line x0 y0 x1 y1 color) s = .next t ∧ Answers t .ok 0 0 0 ∧ SameDescriptor s t ∧ SameOutside s t ∧
      WritesPixels ((linePoints x0.toInt y0.toInt x1.toInt y1.toInt).map (pixelOf s.cfg.axisMap))
        (color.extractLsb' 0 8) s t ∧
      t.work.steep = w.steep ∧ t.work.x0 = w.x0 ∧ t.work.y0 = w.y0 ∧ t.work.x1 = w.x1 ∧ t.work.y1 = w.y1 ∧
      t.work.dx = w.dx ∧ t.work.derr = w.derr ∧ t.work.ystep = w.ystep ∧ t.work.x = w.x1 ∧
      t.work.v0 = s.work.v0 ∧ t.work.v1 = s.work.v1 ∧ t.work.v2 = s.work.v2 ∧ t.work.edge = s.work.edge ∧
      t.work.nb = s.work.nb

/-- R145: LINE, TRI and FILLN plot in order and stop at the first failing plot. There is a number `k` of plots made: all before
it in bounds; if it is not all of them, plot `k` is out of bounds and is the one reported; the pixels of the first `k` plots hold
the colour, every other lane is as before, and the lifecycle and descriptor are unchanged. -/
def Obligations.RasterizerStopsAtTheFirstFailingPlot : Prop :=
  ∀ (i : Instr) (s : State) (color : Word32), rasterColor i = some color → s.halt = false → s.live = true →
    i.wellFormed s.cfg = true →
    let pixels := commandPixels s.cfg.axisMap i
    ∃ (t : State) (k : Nat), exec i s = .next t ∧ k ≤ pixels.length ∧
      (∀ p ∈ pixels.take k, inBounds s p.1 p.2 = true) ∧
      WritesPixels (pixels.take k) (color.extractLsb' 0 8) s t ∧
      (∀ p, pixels[k]? = some p → inBounds s p.1 p.2 = false ∧ Answers t .outOfBounds 0 p.1 p.2) ∧
      (k = pixels.length → Answers t .ok 0 0 0) ∧
      SameDescriptor s t ∧ SameOutside s t

/-- R139: the three conditional exchanges order three vertices by ascending x and lose none; the result of each of the ways three
x can stand to each other, equal ones included, is the one that the exchanges (0,1), (0,2), (1,2) on strict `>` give. -/
def Obligations.SortByXOrdersThreeVertices : Prop :=
  ∀ a b c : Point,
    let v := sortByX a b c
    v.v0.x ≤ v.v1.x ∧ v.v1.x ≤ v.v2.x ∧ [v.v0, v.v1, v.v2].Perm [a, b, c] ∧
    (a.x ≤ b.x → b.x ≤ c.x → v = ⟨a, b, c⟩) ∧
    (a.x ≤ c.x → c.x < b.x → v = ⟨a, c, b⟩) ∧
    (c.x < a.x → a.x < b.x → v = ⟨c, a, b⟩) ∧
    (c.x < a.x → a.x = b.x → v = ⟨c, b, a⟩) ∧
    (b.x < a.x → a.x ≤ c.x → v = ⟨b, a, c⟩) ∧
    (b.x ≤ c.x → c.x < a.x → v = ⟨b, c, a⟩) ∧
    (c.x < b.x → b.x < a.x → v = ⟨c, b, a⟩)

/-- R140, its completion: TRI with its three vertices in the image draws exactly the three edges of the sorted vertices. That V0 to
V2 and EDGE keep their last values after the command is the model's choice (log 7). -/
def Obligations.TriDrawsTheThreeEdges : Prop :=
  ∀ (s : State) (x0 y0 x1 y1 x2 y2 color : Word32), s.halt = false → s.live = true →
    (∀ p ∈ [(⟨x0.toInt, y0.toInt⟩ : Point), ⟨x1.toInt, y1.toInt⟩, ⟨x2.toInt, y2.toInt⟩],
      inBounds s (pixelOf s.cfg.axisMap p).1 (pixelOf s.cfg.axisMap p).2 = true) →
    let v := sortByX ⟨x0.toInt, y0.toInt⟩ ⟨x1.toInt, y1.toInt⟩ ⟨x2.toInt, y2.toInt⟩
    ∃ t, exec (.tri x0 y0 x1 y1 x2 y2 color) s = .next t ∧ Answers t .ok 0 0 0 ∧ SameDescriptor s t ∧ SameOutside s t ∧
      WritesPixels
        ((linePoints v.v0.x v.v0.y v.v1.x v.v1.y ++ linePoints v.v1.x v.v1.y v.v2.x v.v2.y
          ++ linePoints v.v2.x v.v2.y v.v0.x v.v0.y).map (pixelOf s.cfg.axisMap))
        (color.extractLsb' 0 8) s t ∧
      t.work.v0 = v.v0 ∧ t.work.v1 = v.v1 ∧ t.work.v2 = v.v2 ∧ t.work.edge = 2 ∧ t.work.nb = s.work.nb

/-- R141: when no vertex is out of bounds the buffer after TRI is the same for every order of its vertices; and TRI answers
OutOfBounds if and only if at least one vertex is out of bounds. -/
def Obligations.TriIsIndependentOfTheVertexOrder : Prop :=
  ∀ (s : State) (x0 y0 x1 y1 x2 y2 color : Word32), s.halt = false → s.live = true → s.mem.wf →
    let ok := ∀ p ∈ [(⟨x0.toInt, y0.toInt⟩ : Point), ⟨x1.toInt, y1.toInt⟩, ⟨x2.toInt, y2.toInt⟩],
      inBounds s (pixelOf s.cfg.axisMap p).1 (pixelOf s.cfg.axisMap p).2 = true
    ∃ t, exec (.tri x0 y0 x1 y1 x2 y2 color) s = .next t ∧
      (rspStatus t.rsp = Status.outOfBounds.code ↔ ¬ ok) ∧
      (ok → ∀ a b c d e f : Word32, [(a, b), (c, d), (e, f)].Perm [(x0, y0), (x1, y1), (x2, y2)] →
        ∃ u, exec (.tri a b c d e f color) s = .next u ∧ u.mem = t.mem ∧ u.rsp = t.rsp ∧ SameDescriptor t u)

/-- 30_encoding.md R81: TRI's effect equals three LINE commands when none faults. -/
def Obligations.TriEqualsThreeLinesWhenNoneFaults : Prop :=
  ∀ (s : State) (x0 y0 x1 y1 x2 y2 color : Word32), s.halt = false → s.live = true → s.mem.wf →
    (∀ p ∈ [(⟨x0.toInt, y0.toInt⟩ : Point), ⟨x1.toInt, y1.toInt⟩, ⟨x2.toInt, y2.toInt⟩],
      inBounds s (pixelOf s.cfg.axisMap p).1 (pixelOf s.cfg.axisMap p).2 = true) →
    ∃ t a b c, exec (.tri x0 y0 x1 y1 x2 y2 color) s = .next t ∧ exec (.line x0 y0 x1 y1 color) s = .next a ∧
      exec (.line x1 y1 x2 y2 color) a = .next b ∧ exec (.line x2 y2 x0 y0 color) b = .next c ∧
      c.mem = t.mem ∧ c.rsp = t.rsp ∧ SameDescriptor t c

/-- R142, its completion: FILLN inside the image paints the four edge-neighbours, not the centre. That NB keeps its last value is the
model's choice (log 7). -/
def Obligations.FillnPaintsTheFourNeighbours : Prop :=
  ∀ (s : State) (x y color : Word32), s.halt = false → s.live = true → s.cfg.hasFilln = true →
    (∀ p ∈ [(⟨x.toInt + 1, y.toInt⟩ : Point), ⟨x.toInt - 1, y.toInt⟩, ⟨x.toInt, y.toInt + 1⟩, ⟨x.toInt, y.toInt - 1⟩],
      inBounds s (pixelOf s.cfg.axisMap p).1 (pixelOf s.cfg.axisMap p).2 = true) →
    ∃ t, exec (.filln x y color) s = .next t ∧ Answers t .ok 0 0 0 ∧ SameDescriptor s t ∧ SameOutside s t ∧
      WritesPixels
        ([(⟨x.toInt + 1, y.toInt⟩ : Point), ⟨x.toInt - 1, y.toInt⟩, ⟨x.toInt, y.toInt + 1⟩, ⟨x.toInt, y.toInt - 1⟩].map
          (pixelOf s.cfg.axisMap)) (color.extractLsb' 0 8) s t ∧
      (∀ p, p = pixelOf s.cfg.axisMap ⟨x.toInt, y.toInt⟩ → inBounds s p.1 p.2 = true →
        getPoint p.1 p.2 t = getPoint p.1 p.2 s) ∧
      t.work = { s.work with nb := 3 }

/-- R142, R197: FILLN whose centre is a border pixel of the image always answers OutOfBounds; without `HAS_FILLN` it is
IllegalCommand and changes nothing, as R74 and R176 say of its packet. That `exec` answers so for a FILLN that no packet decodes to is
the model's own (log 15). -/
def Obligations.FillnAtTheBorderFaults : Prop :=
  (∀ (s : State) (x y color : Word32), s.halt = false → s.live = true → s.cfg.hasFilln = true →
    (let p := pixelOf s.cfg.axisMap ⟨x.toInt, y.toInt⟩
     inBounds s p.1 p.2 = true ∧
      (p.1 = 0 ∨ p.1 = s.height.toNat - 1 ∨ p.2 = 0 ∨ p.2 = s.width.toNat - 1)) →
    ∃ t, exec (.filln x y color) s = .next t ∧ rspStatus t.rsp = Status.outOfBounds.code) ∧
  (∀ (s : State) (x y color : Word32), s.halt = false → s.cfg.hasFilln = false →
    ∃ t, exec (.filln x y color) s = .next t ∧ Answers t .illegalCommand 0 0 0 ∧ SameDescriptor s t ∧ SameOutside s t ∧
      t.mem = s.mem ∧ t.work = s.work)

/-- R204, R144: how many plots the rasterizer commands make: at most 2^32 for a line, three times that for a triangle, four for
FILLN, at most one for the others. -/
def Obligations.PlotCountsAreBounded : Prop :=
  ∀ (m : AxisMap) (i : Instr),
    (commandPixels m i).length ≤ 3 * 2 ^ 32 ∧
    (∀ a b c d v, i = .line a b c d v →
      (commandPixels m i).length = max (a.toInt - c.toInt).natAbs (b.toInt - d.toInt).natAbs + 1 ∧
      (commandPixels m i).length ≤ 2 ^ 32) ∧
    (∀ x y v, i = .filln x y v → (commandPixels m i).length = 4) ∧
    (rasterColor i = none → (commandPixels m i).length ≤ 1)

/-! ### Faults, lifecycle, reset, the channels -/

/-- R174: from a failed allocation on the unit accepts no command. A halted unit runs no command, no step of it ends a command
or changes its lifecycle, descriptor or BUF unless the host asserts reset, and reset clears HALT. That a step stops when a packet is
presented and no move of the host is left is the model's form of R174's "stuck" (log 11), and that CMD and RSP keep their packets is its
choice (log 19). R194: a run that reaches HALT never ends. -/
def Obligations.OnlyResetLeavesTheHaltedState : Prop :=
  (∀ (i : Instr) (s : State), s.halt = true → exec i s = .fault .halted) ∧
  (∀ s t : State, s.halt = true → step s = .next t → (∀ moves, s.host ≠ .reset :: moves) →
    SameDescriptor s t ∧ t.mem = s.mem ∧ t.work = s.work ∧ t.cmd = s.cmd ∧ t.rsp = s.rsp) ∧
  (∀ (s : State) (P : Packet), s.halt = true → s.phase = .idle → s.chan = some P → s.host = [] →
    step s = .fault .halted) ∧
  (∀ (s : State) (moves : List HostMove), s.halt = true → s.host = .reset :: moves →
    ∃ t, step s = .next t ∧ t.halt = false ∧ t.live = false) ∧
  (∀ s t : State, s.halt = true → step s = .next t → (∀ moves, s.host ≠ .reset :: moves) → ¬ RunEnded s ∧ ¬ RunEnded t)

/-- A step stops only in the halted state: every command the unit accepts, legal or not, is answered (R9, R204). That
waiting is a step too, when neither agent has anything to do, is the model's choice (log 11). -/
def Obligations.StepStopsOnlyWhenHalted : Prop :=
  (∀ s : State, s.halt = false → ∃ t, step s = .next t) ∧
  (∀ (s : State) (r : Refusal), step s ≠ .refused r)

/-- R190, R30: reset puts the unit at the state of R30, whatever it was doing; no response is pending, no word of BUF keeps a
written value, and the configuration stays. An idle unit with a packet presented that it can accept goes first, and reset follows in
a later step: the model's choice (log 9). That the words are drawn afresh, under a number no draw so far has, is its form of
"unspecified" (log 3). That the packet presented and the host's further moves stay is the model's choice (log 10). The host's record
of the run is closed and the next run's starts empty (R194, in the form of log 20). -/
def Obligations.ResetReturnsTheUnitToItsStartState : Prop :=
  ∀ (s : State) (moves : List HostMove), s.accepts = none → s.host = .reset :: moves →
    ∃ t, step s = .next t ∧ t.live = false ∧ t.halt = false ∧ t.width = 0 ∧ t.height = 0 ∧ t.maxval = 0 ∧ t.name = 0 ∧
      t.stride = 1 ∧ t.alloc = false ∧ t.size = 0 ∧ t.phase = .idle ∧ t.cfg = s.cfg ∧
      t.host = moves ∧ t.chan = s.chan ∧ t.taken = [] ∧ t.pastRuns = s.taken :: s.pastRuns ∧
      (∀ i, drawNumber s.mem.draws i < s.mem.draws.length + 1) ∧
      (∀ i, i < s.cfg.memWords → t.mem.readWord i = Config.draw (s.mem.draws.length + 1) i)

/-- R30 of the model's reset state, for every configuration: the values the rule gives, no response pending, and BUF unspecified
(each word reads as a free value). -/
def Obligations.ResetStateIsAsR30Says : Prop :=
  ∀ cfg : Params,
    let s := State.resetOf cfg
    s.live = false ∧ s.halt = false ∧ s.width = 0 ∧ s.height = 0 ∧ s.maxval = 0 ∧ s.name = 0 ∧
    s.stride = 1 ∧ s.alloc = false ∧ s.size = 0 ∧ s.phase = .idle ∧
    (∃ draw, ∀ i, s.mem.readWord i = Config.draw draw i) ∧ State.reset = State.resetOf Config.params

/-- R78: one response per accepted command, in command order. Counting the responses the host has taken and the one still
offered, a step adds one exactly when it accepts a command, and otherwise none, unless the host asserts reset; what was taken
before stays as it was. A command is accepted only when the unit is idle and not halted; one presented otherwise waits and is not
lost. The host's moves in State, and that the unit goes first, are the model's choice (log 9, log 11). -/
def Obligations.OneResponsePerAcceptedCommand : Prop :=
  ∀ s t : State, step s = .next t → (s.accepts = none → ∀ moves, s.host ≠ .reset :: moves) →
    (s.accepts.isSome = true → s.phase = .idle ∧ s.halt = false) ∧
    t.taken.length + (if t.phase = .resp then 1 else 0) =
      s.taken.length + (if s.phase = .resp then 1 else 0) + (if s.accepts.isSome then 1 else 0) ∧
    (t.taken = s.taken ∨ (s.phase = .resp ∧ t.taken = s.rsp :: s.taken ∧ t.phase = .idle)) ∧ t.pastRuns = s.pastRuns ∧
    (s.accepts = none → s.chan ≠ none → t.chan = s.chan)

/-- R177: a command reports the first status that applies: IllegalCommand, then InvalidState, then its own fault. -/
def Obligations.FaultsAreReportedInPriorityOrder : Prop :=
  ∀ (s : State) (P : Packet), s.accepts = some P →
    ∃ t, step s = .next t ∧
      (IllegalPacket s.cfg P → rspStatus t.rsp = Status.illegalCommand.code) ∧
      (∀ i, decode s.cfg P = .ok i → lifecycleProceeds s i = false → rspStatus t.rsp = Status.invalidState.code) ∧
      (∀ i, decode s.cfg P = .ok i → lifecycleProceeds s i = true →
        rspStatus t.rsp = Status.ok.code ∨
        (rspStatus t.rsp = Status.allocationFailure.code ∧ ∃ w h n m, i = .create w h n m) ∨
        (rspStatus t.rsp = Status.outOfBounds.code ∧ i ≠ .release ∧ ∀ w h n m, i ≠ .create w h n m))

/-- R22, R23: LIVE and the descriptor are written only by CREATE, RELEASE and reset; HALT is set only by a CREATE that answers
AllocationFailure and cleared only by reset; nothing changes the configuration. -/
def Obligations.OnlyCreateReleaseAndResetWriteTheDescriptor : Prop :=
  ∀ s t : State, step s = .next t →
    t.cfg = s.cfg ∧
    (t.live ≠ s.live ∨ t.width ≠ s.width ∨ t.height ≠ s.height ∨ t.maxval ≠ s.maxval ∨ t.name ≠ s.name ∨ t.halt ≠ s.halt →
      (∃ moves, s.host = .reset :: moves) ∨
      (∃ P, s.accepts = some P ∧
        ((∃ w h n m, decode s.cfg P = .ok (.create w h n m)) ∨ (decode s.cfg P = .ok .release ∧ t.halt = s.halt)))) ∧
    (s.halt = false → t.halt = true → rspStatus t.rsp = Status.allocationFailure.code)

/-- R23, 70_reset_and_hazards.md R198: MAXVAL and NAME are never consulted: two states that differ only there give the same
responses, the same buffer and the same flags. -/
def Obligations.MaxvalAndNameAreNeverConsulted : Prop :=
  ∀ (i : Instr) (s t : State) (a b : Word32), exec i s = .next t →
    ∃ u, exec i { s with maxval := a, name := b } = .next u ∧
      u.rsp = t.rsp ∧ u.mem = t.mem ∧ u.live = t.live ∧ u.halt = t.halt ∧ u.width = t.width ∧ u.height = t.height ∧
      u.work = t.work ∧ u.phase = t.phase

/-- R26, R20: every working register, the latch and the response are written before they are read in every command: what a
command answers and does to the image does not depend on what they held. -/
def Obligations.WorkingStateIsWrittenBeforeRead : Prop :=
  ∀ (i : Instr) (s t : State) (w : Work) (P : Packet) (Q : RspPacket), exec i s = .next t →
    ∃ u, exec i { s with work := w, cmd := P, rsp := Q } = .next u ∧
      u.rsp = t.rsp ∧ u.mem = t.mem ∧ u.phase = t.phase ∧ SameDescriptor t u

/-- The frame of every command at once: no command writes the configuration, the latch or the host's side; only CREATE and
RELEASE write the descriptor; CREATE, RELEASE, SETPOINT and GETPOINT leave the working registers alone; RELEASE and GETPOINT
leave BUF alone (20_memory.md R54); SETPOINT, LINE, TRI and FILLN leave every lane alone that is not the address of one of their
pixels; CREATE leaves every word alone that the image does not need (R111). -/
def Obligations.CommandsKeepWhatTheyDoNotWrite : Prop :=
  ∀ (i : Instr) (s t : State), exec i s = .next t →
    SameOutside s t ∧
    ((i ≠ .release ∧ ∀ w h n m, i ≠ .create w h n m) → SameDescriptor s t) ∧
    (rasterColor i = none → t.work = s.work) ∧
    ((i = .release ∨ ∃ r c, i = .getpoint r c) → t.mem = s.mem) ∧
    ((∀ w h n m, i ≠ .create w h n m) →
      ∀ word k, k < 8 → (∀ p ∈ commandPixels s.cfg.axisMap i, pixelAddr s p.1 p.2 ≠ ⟨word, 8 * k⟩) →
        t.mem.lane word k = s.mem.lane word k) ∧
    (∀ w h n m, i = .create w h n m →
      ∀ word k, k < 8 → needOf w.toNat h.toNat ≤ word → t.mem.lane word k = s.mem.lane word k)

/-- The invariants of R29 (a) to (c) hold after reset, whatever the configuration, and so do the ranges of the working registers
(R26), whose values there are the model's choice (log 6). -/
def Obligations.InvariantsHoldAtReset : Prop :=
  ∀ cfg : Params, Inv (State.resetOf cfg) ∧ WorkFits (State.resetOf cfg).work

/-- R29 (a) to (c), with the canonical form of BUF (log 13): every step keeps them. -/
def Obligations.EveryStepKeepsTheImageInvariants : Prop :=
  ∀ s t : State, Inv s → step s = .next t → Inv t

/-- R26, R138: every step keeps the working registers in their ranges (DERR at most 2*DX, ERR between -DX+1 and DX, DX below
2^32). Y one step beyond the last pixel, and ERR for `DX = 0`, are the model's reading (log 7, log 8). -/
def Obligations.EveryStepKeepsTheRasterizerRanges : Prop :=
  ∀ s t : State, WorkFits s.work → step s = .next t → WorkFits t.work

/-- Taking the response (R78, R172): the host receives exactly the packet offered and the unit is idle again. That PHASE is IDLE for
a halted unit too is log 14, and that CMD and RSP keep their packets is the model's choice (log 19). -/
def Obligations.TakingTheResponseMakesTheUnitIdle : Prop :=
  ∀ (s : State) (moves : List HostMove), s.phase = .resp → s.host = .take :: moves →
    step s = .next { s with phase := .idle, taken := s.rsp :: s.taken, host := moves }

/-! ### Host sequences (43_host_sequences.md) -/

/-- R161: IMG.WRITE is exactly `WIDTH*HEIGHT` GETPOINTs in row-major order, all in bounds. -/
def Obligations.ImgWriteReadsEveryPixelInRowMajorOrder : Prop :=
  ∀ s : State,
    (imgWrite s.outputs).length = s.width.toNat * s.height.toNat ∧
    (∀ r c : Nat, r < s.height.toNat → c < s.width.toNat →
      (imgWrite s.outputs)[r * s.width.toNat + c]? = some (.getpoint (BitVec.ofNat 32 r) (BitVec.ofNat 32 c))) ∧
    (∀ i ∈ imgWrite s.outputs, ∃ r c : Word32, i = .getpoint r c ∧ inBounds s r.toNat c.toNat = true)

/-- R163: the pixel phase of IMG.READ issues one SETPOINT per token until the grid is full, in row-major order, each in bounds. -/
def Obligations.ImgReadFillsTheGridInRowMajorOrder : Prop :=
  ∀ (width height : Word32) (tokens : List Nat), 0 < width.toNat →
    let cmds := imgReadPixels width.toNat height.toNat tokens 0 0
    cmds.length = min tokens.length (width.toNat * height.toNat) ∧
    ∀ k t, k < cmds.length → tokens[k]? = some t →
      cmds[k]? = some (.setpoint (BitVec.ofNat 32 (k / width.toNat)) (BitVec.ofNat 32 (k % width.toNat)) (BitVec.ofNat 32 t)) ∧
      k / width.toNat < height.toNat

/-! ### The end of a run (70_reset_and_hazards.md) -/

/-- R194, over every step. Where the unit is not halted and no command is still to come, taking the response to the last one ends the
run, cleanly if and only if that response and every earlier one of the run is OK and no image is held. That is the one way a run
comes to its end. A run that has ended stays so, cleanly or not, until the host asserts reset; a reset starts another run, which has
not ended, and no response of an earlier run counts for it (that a run without a command, or one that a reset cuts short, has not
ended is log 20, that a take with nothing offered takes nothing is log 11). A run that reaches HALT never ends. -/
def Obligations.RunEndsWithTheResponseToItsLastCommand : Prop :=
  (∀ (s : State) (moves : List HostMove), s.phase = .resp → s.halt = false → s.chan = none → s.host = .take :: moves →
    noFurtherCommand moves = true →
    ∃ t, step s = .next t ∧ RunEnded t ∧
      (RunEndedCleanly t ↔ (∀ Q ∈ s.rsp :: s.taken, rspStatus Q = Status.ok.code) ∧ s.live = false)) ∧
  (∀ s t : State, step s = .next t → ¬ RunEnded s → RunEnded t →
    s.phase = .resp ∧ (∃ moves, s.host = .take :: moves) ∧ t.taken = s.rsp :: s.taken) ∧
  (∀ s t : State, step s = .next t → RunEnded s → (∀ moves, s.host ≠ .reset :: moves) →
    RunEnded t ∧ (RunEndedCleanly t ↔ RunEndedCleanly s)) ∧
  (∀ (s t : State) (moves : List HostMove), step s = .next t → s.accepts = none → s.host = .reset :: moves →
    ¬ RunEnded t ∧ t.taken = [] ∧ t.pastRuns = s.taken :: s.pastRuns) ∧
  (∀ s : State, s.halt = true → ¬ RunEnded s)
end

