-- ==== Sys2Proof/Laws/State.lean ====
section
/-! SUPPORT. One lemma per field per update of State, true by definition, so that no proof unfolds a record update; and the
derived fields under the updates that leave them alone. -/

namespace Sys2Proof.Machine

open Sys2Proof

/-! ### withWork -/

@[simp] theorem withWork_cfg (s : State) (w : Work) : (s.withWork w).cfg = s.cfg := rfl
@[simp] theorem withWork_live (s : State) (w : Work) : (s.withWork w).live = s.live := rfl
@[simp] theorem withWork_halt (s : State) (w : Work) : (s.withWork w).halt = s.halt := rfl
@[simp] theorem withWork_width (s : State) (w : Work) : (s.withWork w).width = s.width := rfl
@[simp] theorem withWork_height (s : State) (w : Work) : (s.withWork w).height = s.height := rfl
@[simp] theorem withWork_maxval (s : State) (w : Work) : (s.withWork w).maxval = s.maxval := rfl
@[simp] theorem withWork_name (s : State) (w : Work) : (s.withWork w).name = s.name := rfl
@[simp] theorem withWork_mem (s : State) (w : Work) : (s.withWork w).mem = s.mem := rfl
@[simp] theorem withWork_phase (s : State) (w : Work) : (s.withWork w).phase = s.phase := rfl
@[simp] theorem withWork_cmd (s : State) (w : Work) : (s.withWork w).cmd = s.cmd := rfl
@[simp] theorem withWork_rsp (s : State) (w : Work) : (s.withWork w).rsp = s.rsp := rfl
@[simp] theorem withWork_work (s : State) (w : Work) : (s.withWork w).work = w := rfl
@[simp] theorem withWork_chan (s : State) (w : Work) : (s.withWork w).chan = s.chan := rfl
@[simp] theorem withWork_host (s : State) (w : Work) : (s.withWork w).host = s.host := rfl
@[simp] theorem withWork_taken (s : State) (w : Work) : (s.withWork w).taken = s.taken := rfl
@[simp] theorem withWork_pastRuns (s : State) (w : Work) : (s.withWork w).pastRuns = s.pastRuns := rfl

/-! ### withMem -/

@[simp] theorem withMem_cfg (s : State) (m : Memory) : (s.withMem m).cfg = s.cfg := rfl
@[simp] theorem withMem_live (s : State) (m : Memory) : (s.withMem m).live = s.live := rfl
@[simp] theorem withMem_halt (s : State) (m : Memory) : (s.withMem m).halt = s.halt := rfl
@[simp] theorem withMem_width (s : State) (m : Memory) : (s.withMem m).width = s.width := rfl
@[simp] theorem withMem_height (s : State) (m : Memory) : (s.withMem m).height = s.height := rfl
@[simp] theorem withMem_maxval (s : State) (m : Memory) : (s.withMem m).maxval = s.maxval := rfl
@[simp] theorem withMem_name (s : State) (m : Memory) : (s.withMem m).name = s.name := rfl
@[simp] theorem withMem_mem (s : State) (m : Memory) : (s.withMem m).mem = m := rfl
@[simp] theorem withMem_phase (s : State) (m : Memory) : (s.withMem m).phase = s.phase := rfl
@[simp] theorem withMem_cmd (s : State) (m : Memory) : (s.withMem m).cmd = s.cmd := rfl
@[simp] theorem withMem_rsp (s : State) (m : Memory) : (s.withMem m).rsp = s.rsp := rfl
@[simp] theorem withMem_work (s : State) (m : Memory) : (s.withMem m).work = s.work := rfl
@[simp] theorem withMem_chan (s : State) (m : Memory) : (s.withMem m).chan = s.chan := rfl
@[simp] theorem withMem_host (s : State) (m : Memory) : (s.withMem m).host = s.host := rfl
@[simp] theorem withMem_taken (s : State) (m : Memory) : (s.withMem m).taken = s.taken := rfl
@[simp] theorem withMem_pastRuns (s : State) (m : Memory) : (s.withMem m).pastRuns = s.pastRuns := rfl

/-! ### respond -/

@[simp] theorem respond_cfg (r : Response) (s : State) : (respond r s).cfg = s.cfg := rfl
@[simp] theorem respond_live (r : Response) (s : State) : (respond r s).live = s.live := rfl
@[simp] theorem respond_halt (r : Response) (s : State) : (respond r s).halt = s.halt := rfl
@[simp] theorem respond_width (r : Response) (s : State) : (respond r s).width = s.width := rfl
@[simp] theorem respond_height (r : Response) (s : State) : (respond r s).height = s.height := rfl
@[simp] theorem respond_maxval (r : Response) (s : State) : (respond r s).maxval = s.maxval := rfl
@[simp] theorem respond_name (r : Response) (s : State) : (respond r s).name = s.name := rfl
@[simp] theorem respond_mem (r : Response) (s : State) : (respond r s).mem = s.mem := rfl
@[simp] theorem respond_phase (r : Response) (s : State) : (respond r s).phase = .resp := rfl
@[simp] theorem respond_cmd (r : Response) (s : State) : (respond r s).cmd = s.cmd := rfl
@[simp] theorem respond_rsp (r : Response) (s : State) : (respond r s).rsp = r.pack := rfl
@[simp] theorem respond_work (r : Response) (s : State) : (respond r s).work = s.work := rfl
@[simp] theorem respond_chan (r : Response) (s : State) : (respond r s).chan = s.chan := rfl
@[simp] theorem respond_host (r : Response) (s : State) : (respond r s).host = s.host := rfl
@[simp] theorem respond_taken (r : Response) (s : State) : (respond r s).taken = s.taken := rfl
@[simp] theorem respond_pastRuns (r : Response) (s : State) : (respond r s).pastRuns = s.pastRuns := rfl

/-! ### accept -/

@[simp] theorem accept_cfg (P : Packet) (s : State) : (accept P s).cfg = s.cfg := rfl
@[simp] theorem accept_live (P : Packet) (s : State) : (accept P s).live = s.live := rfl
@[simp] theorem accept_halt (P : Packet) (s : State) : (accept P s).halt = s.halt := rfl
@[simp] theorem accept_width (P : Packet) (s : State) : (accept P s).width = s.width := rfl
@[simp] theorem accept_height (P : Packet) (s : State) : (accept P s).height = s.height := rfl
@[simp] theorem accept_maxval (P : Packet) (s : State) : (accept P s).maxval = s.maxval := rfl
@[simp] theorem accept_name (P : Packet) (s : State) : (accept P s).name = s.name := rfl
@[simp] theorem accept_mem (P : Packet) (s : State) : (accept P s).mem = s.mem := rfl
@[simp] theorem accept_phase (P : Packet) (s : State) : (accept P s).phase = .busy := rfl
@[simp] theorem accept_cmd (P : Packet) (s : State) : (accept P s).cmd = P := rfl
@[simp] theorem accept_rsp (P : Packet) (s : State) : (accept P s).rsp = s.rsp := rfl
@[simp] theorem accept_work (P : Packet) (s : State) : (accept P s).work = s.work := rfl
@[simp] theorem accept_chan (P : Packet) (s : State) : (accept P s).chan = none := rfl
@[simp] theorem accept_host (P : Packet) (s : State) : (accept P s).host = s.host := rfl
@[simp] theorem accept_taken (P : Packet) (s : State) : (accept P s).taken = s.taken := rfl
@[simp] theorem accept_pastRuns (P : Packet) (s : State) : (accept P s).pastRuns = s.pastRuns := rfl

/-! ### takeResponse -/

@[simp] theorem takeResponse_cfg (s : State) : (takeResponse s).cfg = s.cfg := rfl
@[simp] theorem takeResponse_live (s : State) : (takeResponse s).live = s.live := rfl
@[simp] theorem takeResponse_halt (s : State) : (takeResponse s).halt = s.halt := rfl
@[simp] theorem takeResponse_width (s : State) : (takeResponse s).width = s.width := rfl
@[simp] theorem takeResponse_height (s : State) : (takeResponse s).height = s.height := rfl
@[simp] theorem takeResponse_maxval (s : State) : (takeResponse s).maxval = s.maxval := rfl
@[simp] theorem takeResponse_name (s : State) : (takeResponse s).name = s.name := rfl
@[simp] theorem takeResponse_mem (s : State) : (takeResponse s).mem = s.mem := rfl
@[simp] theorem takeResponse_phase (s : State) : (takeResponse s).phase = .idle := rfl
@[simp] theorem takeResponse_cmd (s : State) : (takeResponse s).cmd = s.cmd := rfl
@[simp] theorem takeResponse_rsp (s : State) : (takeResponse s).rsp = s.rsp := rfl
@[simp] theorem takeResponse_work (s : State) : (takeResponse s).work = s.work := rfl
@[simp] theorem takeResponse_chan (s : State) : (takeResponse s).chan = s.chan := rfl
@[simp] theorem takeResponse_host (s : State) : (takeResponse s).host = s.host := rfl
@[simp] theorem takeResponse_taken (s : State) : (takeResponse s).taken = s.rsp :: s.taken := rfl
@[simp] theorem takeResponse_pastRuns (s : State) : (takeResponse s).pastRuns = s.pastRuns := rfl

/-! ### applyReset -/

@[simp] theorem applyReset_cfg (s : State) : (applyReset s).cfg = s.cfg := rfl
@[simp] theorem applyReset_live (s : State) : (applyReset s).live = false := rfl
@[simp] theorem applyReset_halt (s : State) : (applyReset s).halt = false := rfl
@[simp] theorem applyReset_width (s : State) : (applyReset s).width = 0 := rfl
@[simp] theorem applyReset_height (s : State) : (applyReset s).height = 0 := rfl
@[simp] theorem applyReset_maxval (s : State) : (applyReset s).maxval = 0 := rfl
@[simp] theorem applyReset_name (s : State) : (applyReset s).name = 0 := rfl
@[simp] theorem applyReset_mem (s : State) : (applyReset s).mem = s.mem.redraw s.cfg.memWords := rfl
@[simp] theorem applyReset_phase (s : State) : (applyReset s).phase = .idle := rfl
@[simp] theorem applyReset_cmd (s : State) : (applyReset s).cmd = 0 := rfl
@[simp] theorem applyReset_rsp (s : State) : (applyReset s).rsp = 0 := rfl
@[simp] theorem applyReset_work (s : State) : (applyReset s).work = Work.reset := rfl
@[simp] theorem applyReset_chan (s : State) : (applyReset s).chan = s.chan := rfl
@[simp] theorem applyReset_host (s : State) : (applyReset s).host = s.host := rfl
@[simp] theorem applyReset_taken (s : State) : (applyReset s).taken = [] := rfl
@[simp] theorem applyReset_pastRuns (s : State) : (applyReset s).pastRuns = s.taken :: s.pastRuns := rfl

/-! ### The ways a command ends -/

@[simp] theorem respondOk_eq (d : Byte) (s : State) : respondOk d s = respond ⟨.ok, d, 0, 0⟩ s := rfl
@[simp] theorem raise_eq (f : Status) (row col : Int) (s : State) :
    raise f row col s = respond ⟨f, 0, low32 row, low32 col⟩ s := rfl
@[simp] theorem raisePlain_eq (f : Status) (s : State) : raisePlain f s = respond ⟨f, 0, 0, 0⟩ s := rfl

/-! ### Derived fields -/

@[simp] theorem withWork_alloc (s : State) (w : Work) : (s.withWork w).alloc = s.alloc := rfl
@[simp] theorem withWork_stride (s : State) (w : Work) : (s.withWork w).stride = s.stride := rfl
@[simp] theorem withWork_size (s : State) (w : Work) : (s.withWork w).size = s.size := rfl
@[simp] theorem withWork_inBounds (s : State) (w : Work) (row col : Int) : inBounds (s.withWork w) row col = inBounds s row col := rfl
@[simp] theorem withWork_pixelAddr (s : State) (w : Work) (row col : Int) : pixelAddr (s.withWork w) row col = pixelAddr s row col := rfl

@[simp] theorem withMem_alloc (s : State) (m : Memory) : (s.withMem m).alloc = s.alloc := rfl
@[simp] theorem withMem_stride (s : State) (m : Memory) : (s.withMem m).stride = s.stride := rfl
@[simp] theorem withMem_size (s : State) (m : Memory) : (s.withMem m).size = s.size := rfl
@[simp] theorem withMem_inBounds (s : State) (m : Memory) (row col : Int) : inBounds (s.withMem m) row col = inBounds s row col := rfl
@[simp] theorem withMem_pixelAddr (s : State) (m : Memory) (row col : Int) : pixelAddr (s.withMem m) row col = pixelAddr s row col := rfl

@[simp] theorem respond_alloc (r : Response) (s : State) : (respond r s).alloc = s.alloc := rfl
@[simp] theorem respond_stride (r : Response) (s : State) : (respond r s).stride = s.stride := rfl
@[simp] theorem respond_size (r : Response) (s : State) : (respond r s).size = s.size := rfl
@[simp] theorem respond_inBounds (r : Response) (s : State) (row col : Int) : inBounds (respond r s) row col = inBounds s row col := rfl
@[simp] theorem respond_pixelAddr (r : Response) (s : State) (row col : Int) : pixelAddr (respond r s) row col = pixelAddr s row col := rfl

@[simp] theorem accept_alloc (P : Packet) (s : State) : (accept P s).alloc = s.alloc := rfl
@[simp] theorem accept_stride (P : Packet) (s : State) : (accept P s).stride = s.stride := rfl
@[simp] theorem accept_size (P : Packet) (s : State) : (accept P s).size = s.size := rfl
@[simp] theorem accept_inBounds (P : Packet) (s : State) (row col : Int) : inBounds (accept P s) row col = inBounds s row col := rfl
@[simp] theorem accept_pixelAddr (P : Packet) (s : State) (row col : Int) : pixelAddr (accept P s) row col = pixelAddr s row col := rfl

@[simp] theorem takeResponse_alloc (s : State) : (takeResponse s).alloc = s.alloc := rfl
@[simp] theorem takeResponse_stride (s : State) : (takeResponse s).stride = s.stride := rfl
@[simp] theorem takeResponse_size (s : State) : (takeResponse s).size = s.size := rfl
@[simp] theorem takeResponse_inBounds (s : State) (row col : Int) : inBounds (takeResponse s) row col = inBounds s row col := rfl
@[simp] theorem takeResponse_pixelAddr (s : State) (row col : Int) : pixelAddr (takeResponse s) row col = pixelAddr s row col := rfl

/-! ### Runs -/

@[simp] theorem andThen_going (s : State) (f : State → Run) : (Run.going s).andThen f = f s := rfl
@[simp] theorem andThen_failed (r c : Int) (s : State) (f : State → Run) :
    (Run.failed r c s).andThen f = .failed r c s := rfl
@[simp] theorem state_going (s : State) : (Run.going s).state = s := rfl
@[simp] theorem state_failed (r c : Int) (s : State) : (Run.failed r c s).state = s := rfl
@[simp] theorem failure_going (s : State) : (Run.going s).failure = none := rfl
@[simp] theorem failure_failed (r c : Int) (s : State) : (Run.failed r c s).failure = some (r, c) := rfl
@[simp] theorem finish_going (s : State) : (Run.going s).finish = respondOk 0 s := rfl
@[simp] theorem finish_failed (r c : Int) (s : State) : (Run.failed r c s).finish = raise .outOfBounds r c s := rfl

end Sys2Proof.Machine
end

