-- ==== Sys2Proof/Laws/Memory.lean ====
section
/-! SUPPORT. What the operations over BUF do: reading what was written, the canonical form of the listed lanes, words as eight
lanes, and a draw. -/

namespace Sys2Proof.Machine

open Sys2Proof

/-! ### Listed lanes -/

theorem lookupCell_insertCell (cells : List Host.Cell) (k a : Nat) (b : Byte) :
    lookupCell (insertCell cells k b) a = if a = k then some b else lookupCell cells a := by
  induction cells with
  | nil => simp [insertCell, lookupCell]
  | cons c cells ih =>
    by_cases h1 : k < c.1
    · simp [insertCell, lookupCell, h1]
    · by_cases h2 : k = c.1
      · by_cases h3 : a = k <;> simp [insertCell, lookupCell, h2] <;> simp_all
      · by_cases h3 : a = c.1
        · simp [insertCell, lookupCell, h1, h2, h3]; omega
        · simp [insertCell, lookupCell, h1, h2, h3, ih]

theorem lookupCell_filter (cells : List Host.Cell) (n a : Nat) :
    lookupCell (cells.filter fun c => decide (n ≤ c.1)) a = if n ≤ a then lookupCell cells a else none := by
  induction cells with
  | nil => simp [lookupCell]
  | cons c cells ih =>
    by_cases h1 : n ≤ c.1 <;> by_cases h2 : a = c.1 <;> simp_all [lookupCell]

/-- A write adds no key but its own. -/
theorem mem_insertCell {cells : List Host.Cell} {k : Nat} {b : Byte} {c : Host.Cell}
    (h : c ∈ insertCell cells k b) : c = (k, b) ∨ c ∈ cells := by
  induction cells with
  | nil => simpa [insertCell] using h
  | cons d cells ih =>
    simp only [insertCell] at h
    split at h
    · simpa using h
    · split at h
      · rcases List.mem_cons.mp h with h | h
        · exact .inl h
        · exact .inr (List.mem_cons_of_mem _ h)
      · rcases List.mem_cons.mp h with h | h
        · exact .inr (h ▸ List.mem_cons_self)
        · exact (ih h).imp id (List.mem_cons_of_mem _)

/-- A write keeps the canonical form. -/
theorem insertCell_rising {cells : List Host.Cell} (k : Nat) (b : Byte)
    (h : cells.Pairwise fun a b => a.1 < b.1) : (insertCell cells k b).Pairwise fun a b => a.1 < b.1 := by
  induction cells with
  | nil => simp [insertCell]
  | cons c cells ih =>
    obtain ⟨hc, ht⟩ := List.pairwise_cons.mp h
    simp only [insertCell]
    split
    · refine List.pairwise_cons.mpr ⟨fun d hd => ?_, h⟩
      rcases List.mem_cons.mp hd with rfl | hd
      · assumption
      · exact lt_trans (by assumption) (hc d hd)
    · split
      · exact List.pairwise_cons.mpr ⟨fun d hd => by have := hc d hd; simp_all, ht⟩
      · refine List.pairwise_cons.mpr ⟨fun d hd => ?_, ih ht⟩
        rcases mem_insertCell hd with rfl | hd
        · simp only; omega
        · exact hc d hd

theorem lookupCell_none_of_lt {cells : List Host.Cell} {a : Nat} (h : ∀ c ∈ cells, a < c.1) :
    lookupCell cells a = none := by
  induction cells with
  | nil => rfl
  | cons c cells ih =>
    have := h c List.mem_cons_self
    rw [lookupCell, if_neg (by omega)]
    exact ih fun d hd => h d (List.mem_cons_of_mem _ hd)

/-- Equal memories are equal lists: in canonical form the listed lanes decide the list. -/
theorem cells_ext {cs ds : List Host.Cell} (hc : cs.Pairwise fun a b => a.1 < b.1)
    (hd : ds.Pairwise fun a b => a.1 < b.1) (h : ∀ a, lookupCell cs a = lookupCell ds a) : cs = ds := by
  induction cs generalizing ds with
  | nil =>
    cases ds with
    | nil => rfl
    | cons d ds => have := h d.1; simp [lookupCell] at this
  | cons c cs ih =>
    cases ds with
    | nil => have := h c.1; simp [lookupCell] at this
    | cons d ds =>
      obtain ⟨hc1, hc2⟩ := List.pairwise_cons.mp hc
      obtain ⟨hd1, hd2⟩ := List.pairwise_cons.mp hd
      have key : c.1 = d.1 := by
        rcases lt_trichotomy c.1 d.1 with hlt | heq | hgt
        · have := h c.1
          rw [lookupCell_none_of_lt (cells := d :: ds)
            (fun e he => by rcases List.mem_cons.mp he with rfl | he; exacts [hlt, lt_trans hlt (hd1 e he)])] at this
          simp [lookupCell] at this
        · exact heq
        · have := h d.1
          rw [lookupCell_none_of_lt (cells := c :: cs)
            (fun e he => by rcases List.mem_cons.mp he with rfl | he; exacts [hgt, lt_trans hgt (hc1 e he)])] at this
          simp [lookupCell] at this
      have hval : c.2 = d.2 := by have := h c.1; simpa [lookupCell, key] using this
      have htail : cs = ds := by
        refine ih hc2 hd2 fun a => ?_
        by_cases ha : a = c.1
        · subst ha
          rw [lookupCell_none_of_lt hc1, lookupCell_none_of_lt (fun e he => by have := hd1 e he; omega)]
        · have := h a
          rwa [lookupCell, lookupCell, if_neg ha, if_neg (by omega)] at this
      rw [htail, Prod.ext key hval]

/-! ### Lanes -/

theorem laneKey_inj {i k i' k' : Nat} (hk : k < 8) (hk' : k' < 8) :
    laneKey i k = laneKey i' k' ↔ i = i' ∧ k = k' := by
  unfold laneKey; omega

@[simp] theorem writeLane_draws (m : Memory) (i k : Nat) (b : Byte) : (m.writeLane i k b).draws = m.draws := rfl

/-- A lane reads as what was last written to it, and a write leaves every other lane alone. -/
theorem lane_writeLane (m : Memory) (i k i' k' : Nat) (b : Byte) (hk : k < 8) (hk' : k' < 8) :
    (m.writeLane i k b).lane i' k' = if i' = i ∧ k' = k then b else m.lane i' k' := by
  have hkey := @laneKey_inj i' k' i k hk' hk
  simp only [Memory.lane, Memory.writeLane, lookupCell_insertCell, Memory.freeWord]
  by_cases h : i' = i ∧ k' = k
  · rw [if_pos (hkey.mpr h), if_pos h]
  · rw [if_neg (fun e => h (hkey.mp e)), if_neg h]

theorem writeLane_wf {m : Memory} (i k : Nat) (b : Byte) (h : m.wf) : (m.writeLane i k b).wf :=
  insertCell_rising _ _ h

theorem writeLane_inside {m : Memory} {i k n : Nat} {b : Byte} (hi : i < n) (hk : k < 8)
    (h : ∀ c ∈ m.cells, c.1 < 8 * n) : ∀ c ∈ (m.writeLane i k b).cells, c.1 < 8 * n := by
  intro c hc
  rcases mem_insertCell hc with rfl | hc
  · simp only [laneKey]; omega
  · exact h c hc

/-! ### Words -/

/-- Bit `8k + j` of a word is bit `j` of its lane `k`. -/
theorem laneExtract_getLsbD (w : Word64) (b j : Nat) (hj : j < 8) :
    (laneExtract w b).getLsbD j = w.getLsbD (b + j) := by
  simp [laneExtract, hj]

/-- Two words are equal when their eight lanes are. -/
theorem word_ext {w w' : Word64} (h : ∀ k < 8, laneExtract w (8 * k) = laneExtract w' (8 * k)) : w = w' := by
  apply BitVec.eq_of_getLsbD_eq
  intro n hn
  have := congrArg (fun v => BitVec.getLsbD v (n % 8)) (h (n / 8) (by omega))
  simp only [laneExtract_getLsbD _ _ _ (Nat.mod_lt n (by decide : 0 < 8))] at this
  rwa [Nat.div_add_mod] at this

/-- Lane `k` of the word `MemRead` answers is lane `k` of that word of BUF. -/
theorem laneExtract_readWord (m : Memory) (i k : Nat) (hk : k < 8) :
    laneExtract (m.readWord i) (8 * k) = m.lane i k := by
  apply BitVec.eq_of_getLsbD_eq
  intro j hj
  rw [laneExtract_getLsbD _ _ _ hj]
  simp only [Memory.readWord, BitVec.getLsbD_append]
  interval_cases k <;> repeat first | rw [if_neg (by omega)] | rw [if_pos (by omega)]
  all_goals exact congrArg _ (by omega)

/-- Two memories read the same at word `i` when its eight lanes do. -/
theorem readWord_congr {m m' : Memory} {i i' : Nat} (h : ∀ k < 8, m.lane i k = m'.lane i' k) :
    m.readWord i = m'.readWord i' := by
  simp only [Memory.readWord, h _ (by decide : 0 < 8), h _ (by decide : 1 < 8), h _ (by decide : 2 < 8),
    h _ (by decide : 3 < 8), h _ (by decide : 4 < 8), h _ (by decide : 5 < 8), h _ (by decide : 6 < 8),
    h _ (by decide : 7 < 8)]

/-! ### Draws -/

theorem redraw_wf {m : Memory} (n : Nat) (h : m.wf) : (m.redraw n).wf :=
  List.Pairwise.sublist List.filter_sublist h

/-- After a draw of `n` words, a lane of one of them is the free value of this draw; every other lane is as before. -/
theorem lane_redraw (m : Memory) (n i k : Nat) (hk : k < 8) :
    (m.redraw n).lane i k =
      if i < n then laneExtract (Config.draw (m.draws.length + 1) i) (8 * k) else m.lane i k := by
  simp only [Memory.lane, Memory.redraw, lookupCell_filter, Memory.freeWord, drawNumber, laneKey]
  by_cases h : i < n
  · rw [if_neg (by omega), if_pos h, if_pos h]
  · rw [if_pos (by omega), if_neg h, if_neg h]

/-- No draw has a number above how many draws have been made, so the next one's number is new. -/
theorem drawNumber_le (draws : List Nat) (i : Nat) : drawNumber draws i ≤ draws.length := by
  induction draws with
  | nil => exact Nat.le_refl 0
  | cons n older ih => simp only [drawNumber, List.length_cons]; split <;> omega

/-- After a draw of `n` words, a word of it reads as the free value of this draw. -/
theorem readWord_redraw (m : Memory) {n i : Nat} (h : i < n) :
    (m.redraw n).readWord i = Config.draw (m.draws.length + 1) i := by
  apply word_ext
  intro k hk
  rw [laneExtract_readWord _ _ _ hk, lane_redraw _ _ _ _ hk, if_pos h]

theorem writeWord_wf {m : Memory} (i : Nat) (w : Word64) (h : m.wf) : (m.writeWord i w).wf := by
  have key : ∀ (ks : List Nat) (m : Memory), m.wf →
      (ks.foldl (fun m k => m.writeLane i k (laneExtract w (8 * k))) m).wf := by
    intro ks
    induction ks with
    | nil => exact fun _ h => h
    | cons k ks ih => exact fun _ h => ih _ (writeLane_wf _ _ _ h)
  exact key _ m h

/-- Nothing is listed after reset. -/
theorem reset_mem_wf (cfg : Params) : (State.resetOf cfg).mem.wf := List.Pairwise.nil

end Sys2Proof.Machine
end

