-- ==== Sys2Proof/Laws/Draw.lean ====
section
/-! SUPPORT. What a sequence of plots does: it writes the pixels of a list in order and stops at the first one out of bounds.
LINE, TRI and FILLN are such sequences, by one lemma each. -/

namespace Sys2Proof.Machine

open Sys2Proof

/-! ### One pixel -/

theorem pixelAddr_bit (s : State) (r c : Int) : (pixelAddr s r c).bit = 8 * (c.toNat % 8) := rfl

theorem pixelAddr_word (s : State) (r c : Int) :
    (pixelAddr s r c).word = r.toNat * strideOf s.width.toNat + c.toNat / 8 := rfl

theorem pixelAddr_lane (s : State) (r c : Int) : (pixelAddr s r c).bit / 8 = c.toNat % 8 := by
  rw [pixelAddr_bit]; omega

theorem inBounds_iff (s : State) (r c : Int) :
    inBounds s r c = true ↔ 0 ≤ r ∧ r < s.height.toNat ∧ 0 ≤ c ∧ c < s.width.toNat := by
  simp only [inBounds, Bool.and_eq_true, decide_eq_true_eq, and_assoc]; rfl

theorem setPoint_inBounds {s : State} {r c : Int} (v : Word32) (h : inBounds s r c = true) :
    setPoint r c v s = .going (s.withMem (s.mem.writeLane (pixelAddr s r c).word ((pixelAddr s r c).bit / 8) (lowByte v))) := by
  simp [setPoint, h]

theorem setPoint_outside {s : State} {r c : Int} (v : Word32) (h : inBounds s r c = false) :
    setPoint r c v s = .failed r c s := by
  simp [setPoint, h]

/-! ### A list of pixels -/

/-- BUF after the pixels of a list have been written with `b`, in order. -/
def paint (s : State) (b : Byte) : List (Int × Int) → Memory → Memory
  | [], m => m
  | p :: ps, m => paint s b ps (m.writeLane (pixelAddr s p.1 p.2).word ((pixelAddr s p.1 p.2).bit / 8) b)

theorem paint_append (s : State) (b : Byte) (ps qs : List (Int × Int)) (m : Memory) :
    paint s b (ps ++ qs) m = paint s b qs (paint s b ps m) := by
  induction ps generalizing m with
  | nil => rfl
  | cons p ps ih => exact ih _

theorem paint_congr {s t : State} (h : t.width = s.width) (b : Byte) (ps : List (Int × Int)) (m : Memory) :
    paint t b ps m = paint s b ps m := by
  induction ps generalizing m with
  | nil => rfl
  | cons p ps ih => simp only [paint, pixelAddr, h] at ih ⊢; exact ih _

@[simp] theorem paint_draws (s : State) (b : Byte) (ps : List (Int × Int)) (m : Memory) :
    (paint s b ps m).draws = m.draws := by
  induction ps generalizing m with
  | nil => rfl
  | cons p ps ih => exact (ih _).trans rfl

theorem paint_wf {s : State} {b : Byte} {ps : List (Int × Int)} {m : Memory} (h : m.wf) : (paint s b ps m).wf := by
  induction ps generalizing m with
  | nil => exact h
  | cons p ps ih => exact ih (writeLane_wf _ _ _ h)

/-- Keys stay inside BUF when the pixels' words do. -/
theorem paint_inside {s : State} {b : Byte} {ps : List (Int × Int)} {m : Memory} {n : Nat}
    (hp : ∀ p ∈ ps, (pixelAddr s p.1 p.2).word < n) (h : ∀ c ∈ m.cells, c.1 < 8 * n) :
    ∀ c ∈ (paint s b ps m).cells, c.1 < 8 * n := by
  induction ps generalizing m with
  | nil => exact h
  | cons p ps ih =>
    exact ih (fun q hq => hp q (List.mem_cons_of_mem _ hq))
      (writeLane_inside (hp p List.mem_cons_self) (by rw [pixelAddr_lane]; omega) h)

/-- The lane of a painted pixel holds `b`, every other lane is as before. -/
theorem lane_paint (s : State) (b : Byte) (ps : List (Int × Int)) (m : Memory) (i k : Nat) (hk : k < 8) :
    (paint s b ps m).lane i k = if (∃ p ∈ ps, pixelAddr s p.1 p.2 = ⟨i, 8 * k⟩) then b else m.lane i k := by
  induction ps generalizing m with
  | nil => simp [paint]
  | cons p ps ih =>
    have hpk : (pixelAddr s p.1 p.2).bit / 8 < 8 := by rw [pixelAddr_lane]; omega
    have hp : (i = (pixelAddr s p.1 p.2).word ∧ k = (pixelAddr s p.1 p.2).bit / 8) ↔ pixelAddr s p.1 p.2 = ⟨i, 8 * k⟩ := by
      have e := pixelAddr_bit s p.1 p.2
      constructor
      · rintro ⟨rfl, hk'⟩
        rw [show 8 * k = (pixelAddr s p.1 p.2).bit by omega]
      · intro h; rw [h]; simp
    rw [paint, ih, lane_writeLane _ _ _ _ _ _ hpk hk]
    by_cases h1 : ∃ q ∈ ps, pixelAddr s q.1 q.2 = ⟨i, 8 * k⟩
    · rw [if_pos h1, if_pos (by obtain ⟨q, hq, e⟩ := h1; exact ⟨q, List.mem_cons_of_mem _ hq, e⟩)]
    · rw [if_neg h1]
      by_cases h2 : pixelAddr s p.1 p.2 = ⟨i, 8 * k⟩
      · rw [if_pos (hp.mpr h2), if_pos ⟨p, List.mem_cons_self, h2⟩]
      · rw [if_neg (fun e => h2 (hp.mp e)), if_neg]
        rintro ⟨q, hq, e⟩
        rcases List.mem_cons.mp hq with rfl | hq
        · exact h2 e
        · exact h1 ⟨q, hq, e⟩

/-- Which list order, and how often a pixel is written, does not matter: the memory is decided by the set of pixels. -/
theorem paint_ext {s : State} {b : Byte} {ps qs : List (Int × Int)} {m : Memory} (hm : m.wf)
    (h : ∀ p, p ∈ ps ↔ p ∈ qs) : paint s b ps m = paint s b qs m := by
  have key : ∀ (ps : List (Int × Int)) (m : Memory) (a : Nat),
      lookupCell (paint s b ps m).cells a =
        if (∃ p ∈ ps, laneKey (pixelAddr s p.1 p.2).word ((pixelAddr s p.1 p.2).bit / 8) = a) then some b
        else lookupCell m.cells a := by
    intro ps
    induction ps with
    | nil => simp [paint]
    | cons p ps ih =>
      intro m a
      rw [paint, ih, Memory.writeLane, lookupCell_insertCell]
      by_cases h1 : ∃ q ∈ ps, laneKey (pixelAddr s q.1 q.2).word ((pixelAddr s q.1 q.2).bit / 8) = a
      · rw [if_pos h1, if_pos (by obtain ⟨q, hq, e⟩ := h1; exact ⟨q, List.mem_cons_of_mem _ hq, e⟩)]
      · rw [if_neg h1]
        by_cases h2 : a = laneKey (pixelAddr s p.1 p.2).word ((pixelAddr s p.1 p.2).bit / 8)
        · rw [if_pos h2, if_pos ⟨p, List.mem_cons_self, h2.symm⟩]
        · rw [if_neg h2, if_neg]
          rintro ⟨q, hq, e⟩
          rcases List.mem_cons.mp hq with rfl | hq
          · exact h2 e.symm
          · exact h1 ⟨q, hq, e⟩
  have hc : (paint s b ps m).cells = (paint s b qs m).cells := by
    refine cells_ext (paint_wf hm) (paint_wf hm) fun a => ?_
    rw [key, key]
    exact if_congr (by simp only [h]) rfl rfl
  have hd : (paint s b ps m).draws = (paint s b qs m).draws := by simp
  generalize paint s b ps m = p at hc hd ⊢
  generalize paint s b qs m = q at hc hd ⊢
  cases p; cases q; simp_all

/-! ### Runs -/

/-- `Drew L b s r`: the run `r` from `s` wrote with `b` the pixels of `L` before the first one out of bounds, in order, and
changed nothing else but the working registers; it fails at that pixel, and goes on when there is none. -/
def Drew (L : List (Int × Int)) (b : Byte) (s : State) (r : Run) : Prop :=
  ∃ (k : Nat) (w : Work), k ≤ L.length ∧ (∀ p ∈ L.take k, inBounds s p.1 p.2 = true) ∧
    ((k = L.length ∧ r = .going ((s.withMem (paint s b L s.mem)).withWork w)) ∨
     (∃ p, L[k]? = some p ∧ inBounds s p.1 p.2 = false ∧
      r = .failed p.1 p.2 ((s.withMem (paint s b (L.take k) s.mem)).withWork w)))

theorem drew_nil (b : Byte) (s : State) (w : Work) : Drew [] b s (.going (s.withWork w)) :=
  ⟨0, w, le_rfl, by simp, .inl ⟨rfl, rfl⟩⟩

/-- The runs of a `Drew` do not depend on the working registers they start from. -/
theorem Drew.ofWork {L : List (Int × Int)} {b : Byte} {s : State} {w : Work} {r : Run}
    (h : Drew L b (s.withWork w) r) : Drew L b s r := by
  obtain ⟨k, w', hk, hin, h⟩ := h
  refine ⟨k, w', hk, hin, ?_⟩
  have e := fun ps => paint_congr (show (s.withWork w).width = s.width from rfl) b ps s.mem
  rcases h with ⟨hk, h⟩ | ⟨p, hp, ho, h⟩
  · exact .inl ⟨hk, by rw [h]; exact congrArg Run.going (by rw [withWork_mem, e]; rfl)⟩
  · exact .inr ⟨p, hp, ho, by rw [h]; exact congrArg (Run.failed p.1 p.2) (by rw [withWork_mem, e]; rfl)⟩

theorem drew_plot (p : Point) (color : Word32) (s : State) :
    Drew [pixelOf s.cfg.axisMap p] (lowByte color) s (plot p color s) := by
  unfold plot
  cases h : inBounds s (pixelOf s.cfg.axisMap p).1 (pixelOf s.cfg.axisMap p).2
  · exact ⟨0, s.work, by simp, by simp, .inr ⟨_, rfl, h, setPoint_outside color h⟩⟩
  · exact ⟨1, s.work, by simp, by simpa using h, .inl ⟨rfl, setPoint_inBounds color h⟩⟩

/-- Sequencing: the pixels of the first run, then those of the second. -/
theorem Drew.andThen {L L' : List (Int × Int)} {b : Byte} {s : State} {r : Run} {f : State → Run}
    (h : Drew L b s r) (hf : ∀ t, r = .going t → Drew L' b t (f t)) : Drew (L ++ L') b s (r.andThen f) := by
  obtain ⟨k, w, hk, hin, h⟩ := h
  rcases h with ⟨hk, rfl⟩ | ⟨p, hp, ho, rfl⟩
  · obtain ⟨k', w', hk', hin', h'⟩ := hf _ rfl
    refine ⟨k + k', w', by simp; omega, ?_, ?_⟩
    · subst hk
      simp only [List.take_length_add_append, List.mem_append]
      rintro q (hq | hq)
      · exact hin q (by simpa using hq)
      · exact hin' q hq
    · have e := fun ps m => paint_congr
        (show ((s.withMem (paint s b L s.mem)).withWork w).width = s.width from rfl) b ps m
      subst hk
      rcases h' with ⟨hk', h'⟩ | ⟨p, hp, ho, h'⟩
      · refine .inl ⟨by simp [hk'], ?_⟩
        rw [andThen_going, h', e, paint_append]; rfl
      · refine .inr ⟨p, by rw [List.getElem?_append_right (by omega)]; simpa using hp, ho, ?_⟩
        rw [andThen_going, h', e, List.take_length_add_append, paint_append]; rfl
  · have hlt : k < L.length := by
      rw [List.getElem?_eq_some_iff] at hp; exact hp.1
    refine ⟨k, w, by simp; omega, ?_, .inr ⟨p, by rw [List.getElem?_append_left hlt]; exact hp, ho, ?_⟩⟩
    · rwa [List.take_append_of_le_length hk]
    · rw [andThen_failed, List.take_append_of_le_length hk]

/-- A run whose pixels are all in bounds goes on. -/
theorem Drew.going {L : List (Int × Int)} {b : Byte} {s : State} {r : Run} (h : Drew L b s r)
    (hin : ∀ p ∈ L, inBounds s p.1 p.2 = true) :
    ∃ w, r = .going ((s.withMem (paint s b L s.mem)).withWork w) := by
  obtain ⟨k, w, hk, -, ⟨-, h⟩ | ⟨p, hp, ho, -⟩⟩ := h
  · exact ⟨w, h⟩
  · rw [hin p (List.mem_of_getElem? hp)] at ho; cases ho

/-- A run fails when one of its pixels is out of bounds. -/
theorem Drew.failed {L : List (Int × Int)} {b : Byte} {s : State} {r : Run} (h : Drew L b s r)
    (hout : ∃ p ∈ L, inBounds s p.1 p.2 = false) :
    ∃ (p : Int × Int) (k : Nat) (w : Work), p ∈ L ∧ inBounds s p.1 p.2 = false ∧
      r = .failed p.1 p.2 ((s.withMem (paint s b (L.take k) s.mem)).withWork w) := by
  obtain ⟨k, w, hk, hin, ⟨hk', h⟩ | ⟨p, hp, ho, h⟩⟩ := h
  · obtain ⟨p, hp, ho⟩ := hout
    rw [hin p (by rw [hk', List.take_length]; exact hp)] at ho; cases ho
  · exact ⟨p, k, w, List.mem_of_getElem? hp, ho, h⟩

/-- Every pixel of a run's state still tests the same against the bounds, and only BUF and the working registers changed. -/
theorem Drew.state {L : List (Int × Int)} {b : Byte} {s : State} {r : Run} (h : Drew L b s r) :
    ∃ (k : Nat) (w : Work), r.state = (s.withMem (paint s b (L.take k) s.mem)).withWork w ∧
      ∀ p ∈ L.take k, inBounds s p.1 p.2 = true := by
  obtain ⟨k, w, hk, hin, ⟨hk', h⟩ | ⟨p, hp, ho, h⟩⟩ := h
  · exact ⟨k, w, by rw [h, hk', List.take_length]; rfl, hin⟩
  · exact ⟨k, w, by rw [h]; rfl, hin⟩

/-! ### The rasterizer commands as runs -/

theorem plot_going_withWork {p : Point} {color : Word32} {s t : State} (h : plot p color s = .going t) :
    t.cfg = s.cfg ∧ t.work = s.work := by
  unfold plot at h
  cases hb : inBounds s (pixelOf s.cfg.axisMap p).1 (pixelOf s.cfg.axisMap p).2
  · rw [setPoint_outside color hb] at h; cases h
  · rw [setPoint_inBounds color hb] at h; cases h; exact ⟨rfl, rfl⟩

theorem Drew.cfg {L : List (Int × Int)} {b : Byte} {s t : State} (h : Drew L b s (.going t)) : t.cfg = s.cfg := by
  obtain ⟨k, w, -, -, ⟨-, h⟩ | ⟨p, -, -, h⟩⟩ := h
  · cases h; rfl
  · cases h

theorem drew_walkStep (color : Word32) (s : State) :
    Drew [pixelOf s.cfg.axisMap s.work.point] (lowByte color) s (walkStep color s) := by
  have h := (drew_plot s.work.point color s).andThen (L' := [])
    (f := fun s => .going (s.withWork s.work.update)) fun t _ => drew_nil _ t _
  simpa [walkStep] using h

theorem walkStep_going {color : Word32} {s t : State} (h : walkStep color s = .going t) :
    t.work = s.work.update := by
  unfold walkStep at h
  cases hp : plot s.work.point color s with
  | going u =>
    rw [hp, andThen_going] at h; cases h
    rw [withWork_work, (plot_going_withWork hp).2]
  | failed r c u => rw [hp] at h; cases h

theorem drew_walk (color : Word32) (n : Nat) (s : State) :
    Drew ((lineTrace n s.work).map fun w => pixelOf s.cfg.axisMap w.point) (lowByte color) s (walk color n s) := by
  induction n generalizing s with
  | zero => exact drew_walkStep color s
  | succ n ih =>
    refine (drew_walkStep color s).andThen (L' := (lineTrace n s.work.update.advance).map _) fun t ht => ?_
    have hd := drew_walkStep color s
    rw [ht] at hd
    have := ih (t.withWork t.work.advance)
    rw [withWork_work, withWork_cfg, walkStep_going ht, hd.cfg] at this
    rw [walkStep_going ht]
    exact this.ofWork

/-- The registers of a line's start, but for those of the other commands, do not depend on what they held. -/
theorem lineTrace_map_point (n : Nat) {u w : Work} (h : u.steep = w.steep ∧ u.x = w.x ∧ u.y = w.y ∧ u.err = w.err ∧
    u.dx = w.dx ∧ u.derr = w.derr ∧ u.ystep = w.ystep) :
    (lineTrace n u).map Work.point = (lineTrace n w).map Work.point := by
  obtain ⟨h1, h2, h3, h4, h5, h6, h7⟩ := h
  have hp : u.point = w.point := by simp only [Work.point, h1, h2, h3]
  induction n generalizing u w with
  | zero => simp [lineTrace, hp]
  | succ n ih =>
    simp only [lineTrace, List.map_cons, hp, List.cons.injEq, true_and]
    refine ih ?_ ?_ ?_ ?_ ?_ ?_ ?_ ?_ <;> simp only [Work.update, Work.advance, Work.point, h1, h2, h3, h4, h5, h6, h7] <;>
      split_ifs <;> rfl

theorem drew_drawLine (x0 y0 x1 y1 : Int) (color : Word32) (s : State) :
    Drew ((linePoints x0 y0 x1 y1).map (pixelOf s.cfg.axisMap)) (lowByte color) s (drawLine x0 y0 x1 y1 color s) := by
  have h := drew_walk color (s.work.startLine x0 y0 x1 y1).dx.toNat (s.withWork (s.work.startLine x0 y0 x1 y1))
  have e : linePoints x0 y0 x1 y1 =
      (lineTrace (s.work.startLine x0 y0 x1 y1).dx.toNat (s.work.startLine x0 y0 x1 y1)).map Work.point :=
    lineTrace_map_point _ (by simp [lineStart, Work.startLine])
  rw [e, List.map_map]
  exact h.ofWork

theorem drew_drawEdge (e : Fin 3) (p q : Point) (color : Word32) (s : State) :
    Drew ((linePoints p.x p.y q.x q.y).map (pixelOf s.cfg.axisMap)) (lowByte color) s (drawEdge e p q color s) :=
  (drew_drawLine p.x p.y q.x q.y color (s.withWork { s.work with edge := e })).ofWork

theorem drew_drawTriangle (a b c : Point) (color : Word32) (s : State) :
    Drew ((trianglePoints a b c).map (pixelOf s.cfg.axisMap)) (lowByte color) s (drawTriangle a b c color s) := by
  simp only [trianglePoints, List.map_append, List.append_assoc, drawTriangle]
  have h1 := drew_drawEdge 0 (sortByX a b c).v0 (sortByX a b c).v1 color
    (s.withWork { s.work with v0 := (sortByX a b c).v0, v1 := (sortByX a b c).v1, v2 := (sortByX a b c).v2 })
  refine h1.ofWork.andThen fun t ht => ?_
  rw [ht] at h1
  have h2 := drew_drawEdge 1 (sortByX a b c).v1 (sortByX a b c).v2 color t
  rw [h1.cfg] at h2
  refine h2.andThen fun u hu => ?_
  rw [hu] at h2
  have h3 := drew_drawEdge 2 (sortByX a b c).v2 (sortByX a b c).v0 color u
  rwa [h2.cfg, h1.cfg] at h3

theorem drew_paintNeighbour (nb : Fin 4) (p : Point) (color : Word32) (s : State) :
    Drew [pixelOf s.cfg.axisMap p] (lowByte color) s (paintNeighbour nb p color s) :=
  (drew_plot p color (s.withWork { s.work with nb := nb })).ofWork

theorem drew_fillNeighbours (x y : Int) (color : Word32) (s : State) :
    Drew ((neighbourPoints x y).map (pixelOf s.cfg.axisMap)) (lowByte color) s (fillNeighbours x y color s) := by
  have h1 := drew_paintNeighbour 0 ⟨x + 1, y⟩ color s
  refine h1.andThen (L' := [(⟨x - 1, y⟩ : Point), ⟨x, y + 1⟩, ⟨x, y - 1⟩].map (pixelOf s.cfg.axisMap)) fun t ht => ?_
  rw [ht] at h1
  have h2 := drew_paintNeighbour 1 ⟨x - 1, y⟩ color t
  rw [h1.cfg] at h2
  refine h2.andThen (L' := [(⟨x, y + 1⟩ : Point), ⟨x, y - 1⟩].map (pixelOf s.cfg.axisMap)) fun u hu => ?_
  rw [hu] at h2
  have h3 := drew_paintNeighbour 2 ⟨x, y + 1⟩ color u
  rw [h2.cfg, h1.cfg] at h3
  refine h3.andThen (L' := [(⟨x, y - 1⟩ : Point)].map (pixelOf s.cfg.axisMap)) fun v hv => ?_
  rw [hv] at h3
  have h4 := drew_paintNeighbour 3 ⟨x, y - 1⟩ color v
  rwa [h3.cfg, h2.cfg, h1.cfg] at h4

end Sys2Proof.Machine
end

