-- ==== Sys2Proof/Laws/Encoding.lean ====
section
/-! SUPPORT. The fields of a packet made of its words (30_encoding.md R70), and of a response packet (R76). -/

namespace Sys2Proof

/-- A slice of a concatenation that lies in its low part. -/
theorem extract_append_low {a b : Nat} (x : BitVec a) (y : BitVec b) {start len : Nat} (h : start + len ≤ b) :
    (x ++ y).extractLsb' start len = y.extractLsb' start len := by
  apply BitVec.eq_of_getLsbD_eq
  intro j hj
  simp only [BitVec.getLsbD_extractLsb', BitVec.getLsbD_append, hj, decide_true, Bool.true_and]
  rw [if_pos (by omega)]

/-- A slice of a concatenation that lies in its high part. -/
theorem extract_append_high {a b : Nat} (x : BitVec a) (y : BitVec b) {start len : Nat} (h : b ≤ start) :
    (x ++ y).extractLsb' start len = x.extractLsb' (start - b) len := by
  apply BitVec.eq_of_getLsbD_eq
  intro j hj
  simp only [BitVec.getLsbD_extractLsb', BitVec.getLsbD_append, hj, decide_true, Bool.true_and]
  rw [if_neg (by omega), show start + j - b = start - b + j by omega]

theorem extract_whole {n : Nat} (x : BitVec n) : x.extractLsb' 0 n = x := by
  apply BitVec.eq_of_getLsbD_eq
  intro j hj
  simp [hj]

section
variable (w0 w1 w2 w3 w4 w5 w6 w7 : Word32)

@[simp] theorem packetWord_packetOf_0 : packetWord (packetOf w0 w1 w2 w3 w4 w5 w6 w7) 0 = w0 := by
  rw [packetWord, packetOf, extract_append_low _ _ (by omega)]; exact extract_whole _

@[simp] theorem packetWord_packetOf_1 : packetWord (packetOf w0 w1 w2 w3 w4 w5 w6 w7) 1 = w1 := by
  rw [packetWord, packetOf, extract_append_high _ _ (by omega), extract_append_low _ _ (by omega)]
  exact extract_whole _

@[simp] theorem packetWord_packetOf_2 : packetWord (packetOf w0 w1 w2 w3 w4 w5 w6 w7) 2 = w2 := by
  rw [packetWord, packetOf]
  iterate 2 rw [extract_append_high _ _ (by omega)]
  rw [extract_append_low _ _ (by omega)]
  exact extract_whole _

@[simp] theorem packetWord_packetOf_3 : packetWord (packetOf w0 w1 w2 w3 w4 w5 w6 w7) 3 = w3 := by
  rw [packetWord, packetOf]
  iterate 3 rw [extract_append_high _ _ (by omega)]
  rw [extract_append_low _ _ (by omega)]
  exact extract_whole _

@[simp] theorem packetWord_packetOf_4 : packetWord (packetOf w0 w1 w2 w3 w4 w5 w6 w7) 4 = w4 := by
  rw [packetWord, packetOf]
  iterate 4 rw [extract_append_high _ _ (by omega)]
  rw [extract_append_low _ _ (by omega)]
  exact extract_whole _

@[simp] theorem packetWord_packetOf_5 : packetWord (packetOf w0 w1 w2 w3 w4 w5 w6 w7) 5 = w5 := by
  rw [packetWord, packetOf]
  iterate 5 rw [extract_append_high _ _ (by omega)]
  rw [extract_append_low _ _ (by omega)]
  exact extract_whole _

@[simp] theorem packetWord_packetOf_6 : packetWord (packetOf w0 w1 w2 w3 w4 w5 w6 w7) 6 = w6 := by
  rw [packetWord, packetOf]
  iterate 6 rw [extract_append_high _ _ (by omega)]
  rw [extract_append_low _ _ (by omega)]
  exact extract_whole _

@[simp] theorem packetWord_packetOf_7 : packetWord (packetOf w0 w1 w2 w3 w4 w5 w6 w7) 7 = w7 := by
  rw [packetWord, packetOf]
  iterate 7 rw [extract_append_high _ _ (by omega)]
  exact extract_whole _

@[simp] theorem packetOpcode_packetOf : packetOpcode (packetOf w0 w1 w2 w3 w4 w5 w6 w7) = w0.extractLsb' 0 8 := by
  rw [packetOpcode, packetOf, extract_append_low _ _ (by omega)]

@[simp] theorem packetRsv0_packetOf : packetRsv0 (packetOf w0 w1 w2 w3 w4 w5 w6 w7) = w0.extractLsb' 8 24 := by
  rw [packetRsv0, packetOf, extract_append_low _ _ (by omega)]

end

/-- A packet is decided by its eight words. -/
theorem packet_ext {P Q : Packet} (h : ∀ k < 8, packetWord P k = packetWord Q k) : P = Q := by
  apply BitVec.eq_of_getLsbD_eq
  intro n hn
  have e := congrArg (fun v => BitVec.getLsbD v (n % 32)) (h (n / 32) (by omega))
  simp only [packetWord, BitVec.getLsbD_extractLsb', Nat.mod_lt n (by decide : 0 < 32), decide_true, Bool.true_and,
    Nat.div_add_mod] at e
  exact e

/-- A packet is made of its words. -/
theorem packetOf_packetWords (P : Packet) :
    packetOf (packetWord P 0) (packetWord P 1) (packetWord P 2) (packetWord P 3) (packetWord P 4) (packetWord P 5)
      (packetWord P 6) (packetWord P 7) = P := by
  apply packet_ext
  intro k hk
  interval_cases k <;> simp

/-- The first word is the opcode and the reserved field above it. -/
theorem packetWord_0 (P : Packet) : packetWord P 0 = packetRsv0 P ++ packetOpcode P := by
  apply BitVec.eq_of_getLsbD_eq
  intro n hn
  simp only [packetWord, packetRsv0, packetOpcode, BitVec.getLsbD_append, BitVec.getLsbD_extractLsb']
  split <;> rename_i h
  · simp [h, hn]
  · rw [show 8 + (n - 8) = 0 + n by omega, decide_eq_true (show n - 8 < 24 by omega), decide_eq_true hn]

namespace Machine

/-! ### The response packet -/

@[simp] theorem rspStatus_pack (r : Response) : rspStatus r.pack = r.status.code := by
  rw [rspStatus, Response.pack, rspOf, extract_append_low _ _ (by omega), rspWord0, extract_append_low _ _ (by omega)]
  exact extract_whole _

@[simp] theorem rspData_pack (r : Response) : rspData r.pack = r.data := by
  rw [rspData, Response.pack, rspOf, extract_append_low _ _ (by omega), rspWord0, extract_append_high _ _ (by omega),
    extract_append_low _ _ (by omega)]
  exact extract_whole _

@[simp] theorem rspFrow_pack (r : Response) : rspFrow r.pack = r.frow := by
  rw [rspFrow, Response.pack, rspOf, extract_append_high _ _ (by omega), extract_append_low _ _ (by omega)]
  exact extract_whole _

@[simp] theorem rspFcol_pack (r : Response) : rspFcol r.pack = r.fcol := by
  rw [rspFcol, Response.pack, rspOf]
  iterate 2 rw [extract_append_high _ _ (by omega)]
  rw [extract_append_low _ _ (by omega)]
  exact extract_whole _

/-- `Q[31:16]` of a response is zero (R76). -/
theorem pack_zero_high (r : Response) : r.pack.extractLsb' 16 16 = 0 := by
  rw [Response.pack, rspOf, extract_append_low _ _ (by omega), rspWord0]
  iterate 2 rw [extract_append_high _ _ (by omega)]
  exact extract_whole _

/-- `R3` of a response is zero (R76). -/
theorem pack_zero_top (r : Response) : r.pack.extractLsb' 96 32 = 0 := by
  rw [Response.pack, rspOf]
  iterate 3 rw [extract_append_high _ _ (by omega)]
  exact extract_whole _

@[simp] theorem code_inj {a b : Status} : a.code = b.code ↔ a = b := by
  cases a <;> cases b <;> decide

end Machine

end Sys2Proof
end

