-- ==== Sys2Proof/Laws/Exec.lean ====
section
/-! SUPPORT. Everything a command can do, said once (`exec_ends`, `exec_of_ends`), and everything a step can do
(`step_cases`). -/

namespace Sys2Proof.Machine

open Sys2Proof

theorem command_next {n : Needs} {body : State → State} {s t : State} :
    command n body s = .next t ↔
      s.halt = false ∧ ((lifecycleAllows n s = true ∧ t = body s) ∨
        (lifecycleAllows n s = false ∧ t = raisePlain .invalidState s)) := by
  unfold command
  cases s.halt <;> cases lifecycleAllows n s <;> simp [eq_comm]

theorem illegalCommand_next {s t : State} :
    illegalCommand s = .next t ↔ s.halt = false ∧ t = raisePlain .illegalCommand s := by
  unfold illegalCommand
  cases s.halt <;> simp [eq_comm]

/-- A command that writes pixels: its colour or value. -/
def pixelValue : Instr → Option Word32
  | .create _ _ _ _ => none
  | .release => none
  | .setpoint _ _ value => some value
  | .getpoint _ _ => none
  | .line _ _ _ _ color => some color
  | .tri _ _ _ _ _ _ color => some color
  | .filln _ _ color => some color

/-- The ways a command ends in a state that may execute it. -/
inductive Ends : Instr → State → State → Prop where
  /-- The lifecycle table forbids it (R110). -/
  | invalid (i : Instr) (s : State) (hw : i.wellFormed s.cfg = true) (h : lifecycleProceeds s i = false) :
      Ends i s (raisePlain .invalidState s)
  /-- FILLN where there is none (R142). -/
  | absent (x y color : Word32) (s : State) (h : s.cfg.hasFilln = false) :
      Ends (.filln x y color) s (raisePlain .illegalCommand s)
  /-- CREATE makes the image (R111). -/
  | created (w h n m : Word32) (s : State) (ha : s.alloc = false) (hn : needOf w.toNat h.toNat ≤ s.cfg.memWords) :
      Ends (.create w h n m) s
        (respondOk 0 { s with live := true, width := w, height := h, maxval := m, name := n,
                              mem := if needOf w.toNat h.toNat > 0 then s.mem.redraw (needOf w.toNat h.toNat) else s.mem })
  /-- CREATE finds too little room (R174). -/
  | exhausted (w h n m : Word32) (s : State) (ha : s.alloc = false) (hn : s.cfg.memWords < needOf w.toNat h.toNat) :
      Ends (.create w h n m) s (raisePlain .allocationFailure { s with halt := true })
  /-- RELEASE (R112). -/
  | released (s : State) (h : s.live = true) :
      Ends .release s (respondOk 0 { s with live := false, width := 0, height := 0, maxval := 0, name := 0 })
  /-- SETPOINT, LINE, TRI and FILLN write their pixels in order (R113, R145). -/
  | drew (i : Instr) (v : Word32) (s : State) (r : Run) (hv : pixelValue i = some v) (hl : s.live = true)
      (hw : i.wellFormed s.cfg = true) (hr : Drew (commandPixels s.cfg.axisMap i) (lowByte v) s r) : Ends i s r.finish
  /-- GETPOINT in bounds (R114). -/
  | got (r c : Word32) (s : State) (d : Byte) (h : s.live = true) (hd : getPoint (uint32 r) (uint32 c) s = some d) :
      Ends (.getpoint r c) s (respondOk d s)
  /-- GETPOINT out of bounds (R114). -/
  | missed (r c : Word32) (s : State) (h : s.live = true) (hd : getPoint (uint32 r) (uint32 c) s = none) :
      Ends (.getpoint r c) s (raise .outOfBounds (uint32 r) (uint32 c) s)

theorem drew_setPoint (r c : Int) (v : Word32) (s : State) : Drew [(r, c)] (lowByte v) s (setPoint r c v s) := by
  cases h : inBounds s r c
  · exact ⟨0, s.work, by simp, by simp, .inr ⟨_, rfl, h, setPoint_outside v h⟩⟩
  · exact ⟨1, s.work, by simp, by simpa using h, .inl ⟨rfl, setPoint_inBounds v h⟩⟩

theorem alloc_live {s : State} (h : s.live = false) : s.alloc = false := by simp [State.alloc, h]

theorem lifecycleProceeds_create (s : State) (w h n m : Word32) :
    lifecycleProceeds s (.create w h n m) = lifecycleAllows .noBuffer s := by
  simp only [lifecycleProceeds, lifecycleAllows, State.alloc]
  cases s.live <;> simp

/-- What `exec` does in a state that is not halted. -/
theorem exec_ends {i : Instr} {s t : State} (h : exec i s = .next t) : s.halt = false ∧ Ends i s t := by
  cases i with
  | create w hh n m =>
    obtain ⟨hh', ⟨ha, rfl⟩ | ⟨ha, rfl⟩⟩ := command_next.mp h
    · have ha : s.alloc = false := by simpa [lifecycleAllows] using ha
      unfold createBody
      by_cases hn : needOf w.toNat hh.toNat > s.cfg.memWords
      · simp only [hn, if_true]; exact ⟨hh', .exhausted _ _ _ _ _ ha hn⟩
      · simp only [hn, if_false]; exact ⟨hh', .created _ _ _ _ _ ha (by omega)⟩
    · exact ⟨hh', .invalid _ _ rfl (by rw [lifecycleProceeds_create, ha])⟩
  | release =>
    obtain ⟨hh, ⟨ha, rfl⟩ | ⟨ha, rfl⟩⟩ := command_next.mp h
    · exact ⟨hh, .released _ ha⟩
    · exact ⟨hh, .invalid _ _ rfl ha⟩
  | setpoint r c v =>
    obtain ⟨hh, ⟨ha, rfl⟩ | ⟨ha, rfl⟩⟩ := command_next.mp h
    · exact ⟨hh, .drew (.setpoint r c v) v _ _ rfl ha rfl (drew_setPoint _ _ _ _)⟩
    · exact ⟨hh, .invalid _ _ rfl ha⟩
  | getpoint r c =>
    obtain ⟨hh, ⟨ha, rfl⟩ | ⟨ha, rfl⟩⟩ := command_next.mp h
    · unfold getpointBody
      cases hd : getPoint (uint32 r) (uint32 c) s with
      | some d => exact ⟨hh, .got _ _ _ _ ha hd⟩
      | none => exact ⟨hh, .missed _ _ _ ha hd⟩
    · exact ⟨hh, .invalid _ _ rfl ha⟩
  | line x0 y0 x1 y1 color =>
    obtain ⟨hh, ⟨ha, rfl⟩ | ⟨ha, rfl⟩⟩ := command_next.mp h
    · exact ⟨hh, .drew (.line x0 y0 x1 y1 color) color _ _ rfl ha rfl (drew_drawLine _ _ _ _ _ _)⟩
    · exact ⟨hh, .invalid _ _ rfl ha⟩
  | tri x0 y0 x1 y1 x2 y2 color =>
    obtain ⟨hh, ⟨ha, rfl⟩ | ⟨ha, rfl⟩⟩ := command_next.mp h
    · exact ⟨hh, .drew (.tri x0 y0 x1 y1 x2 y2 color) color _ _ rfl ha rfl (drew_drawTriangle _ _ _ _ _)⟩
    · exact ⟨hh, .invalid _ _ rfl ha⟩
  | filln x y color =>
    simp only [exec, execFilln] at h
    split at h
    · obtain ⟨hh, ⟨ha, rfl⟩ | ⟨ha, rfl⟩⟩ := command_next.mp h
      · exact ⟨hh, .drew (.filln x y color) color _ _ rfl ha ‹_› (drew_fillNeighbours _ _ _ _)⟩
      · exact ⟨hh, .invalid _ _ ‹_› ha⟩
    · obtain ⟨hh, rfl⟩ := illegalCommand_next.mp h
      exact ⟨hh, .absent _ _ _ _ (Bool.eq_false_iff.mpr ‹_›)⟩

/-- Every command is answered in a state that is not halted. -/
theorem exec_total (i : Instr) {s : State} (h : s.halt = false) : ∃ t, exec i s = .next t := by
  have hc : ∀ n body, ∃ t, command n body s = .next t := fun n body => by
    unfold command
    rw [if_neg (by simp [h])]
    split <;> exact ⟨_, rfl⟩
  cases i with
  | filln x y color =>
    simp only [exec, execFilln]
    split
    · exact hc _ _
    · unfold illegalCommand
      rw [if_neg (by simp [h])]
      exact ⟨_, rfl⟩
  | _ => exact hc _ _

/-- A command that may run, runs to its end. -/
theorem exec_ends_of_running (i : Instr) {s : State} (h : s.halt = false) : ∃ t, exec i s = .next t ∧ Ends i s t := by
  obtain ⟨t, ht⟩ := exec_total i h
  exact ⟨t, ht, (exec_ends ht).2⟩

/-- A halted unit executes nothing. -/
theorem exec_halted (i : Instr) {s : State} (h : s.halt = true) : exec i s = .fault .halted := by
  have hc : ∀ n body, command n body s = .fault .halted := fun n body => by simp [command, h]
  cases i with
  | filln x y color =>
    simp only [exec, execFilln]
    split
    · exact hc _ _
    · simp [illegalCommand, h]
  | _ => exact hc _ _

/-- Every command ends in a response being offered. -/
theorem Ends.answered {i : Instr} {s t : State} (h : Ends i s t) : ∃ r : Response, t.phase = .resp ∧ t.rsp = r.pack := by
  cases h with
  | drew _ _ _ r => cases r <;> exact ⟨_, rfl, rfl⟩
  | _ => exact ⟨_, rfl, rfl⟩

/-! ### Steps -/

theorem accepts_some {s : State} {P : Packet} :
    s.accepts = some P ↔ s.phase = .idle ∧ s.halt = false ∧ s.chan = some P := by
  unfold State.accepts State.ready
  cases hp : s.phase <;> cases hh : s.halt <;> simp

/-- What a step can do: execute the packet it accepts, legal or not, or let the host move. -/
theorem step_cases {s t : State} (h : step s = .next t) :
    (∃ P i, s.accepts = some P ∧ decode s.cfg P = .ok i ∧ Ends i (accept P s) t) ∨
    (∃ P e, s.accepts = some P ∧ decode s.cfg P = .error e ∧ t = raisePlain .illegalCommand (accept P s)) ∨
    (s.accepts = none ∧ hostTurn s = .next t) := by
  unfold step at h
  split at h
  · exact .inr (.inr ⟨‹_›, h⟩)
  · rename_i P hP
    split at h
    · exact .inl ⟨P, _, hP, ‹_›, (exec_ends h).2⟩
    · exact .inr (.inl ⟨P, _, hP, ‹_›, (illegalCommand_next.mp h).2⟩)

/-- What the host's turn can do: nothing, reset the unit, take the response, drop a take, or present a packet. -/
theorem hostTurn_cases {s t : State} (h : hostTurn s = .next t) :
    t = s ∨
    (∃ moves, s.host = .reset :: moves ∧ t = applyReset { s with host := moves }) ∨
    (∃ moves, s.host = .take :: moves ∧ s.phase = .resp ∧ t = takeResponse { s with host := moves }) ∨
    (∃ moves, s.host = .take :: moves ∧ s.phase ≠ .resp ∧ t = { s with host := moves }) ∨
    (∃ P moves, s.host = .present P :: moves ∧ s.chan = none ∧ t = { s with chan := some P, host := moves }) := by
  have hw : ∀ {t}, waitOrStuck s = .next t → t = s := fun {t} h => by
    unfold waitOrStuck at h
    split at h <;> cases h
    rfl
  unfold hostTurn at h
  split at h
  · exact .inl (hw h)
  · cases h; exact .inr (.inl ⟨_, ‹_›, rfl⟩)
  · split at h <;> cases h
    · exact .inr (.inr (.inl ⟨_, ‹_›, ‹_›, rfl⟩))
    · exact .inr (.inr (.inr (.inl ⟨_, ‹_›, ‹_›, rfl⟩)))
  · split at h
    · cases h; exact .inr (.inr (.inr (.inr ⟨_, _, ‹_›, ‹_›, rfl⟩)))
    · exact .inl (hw h)

end Sys2Proof.Machine
end

