-- ==== Sys2Proof/Laws/Line.lean ====
section
/-! SUPPORT. The line engine as arithmetic (42_rasterizer.md R131, R132): what normalisation gives, and where the walk stands after
`k` iterations. -/

namespace Sys2Proof.Machine

open Sys2Proof

/-- What R131 leaves in the registers of a line. -/
structure Normalised (w : Work) : Prop where
  dx : w.dx = w.x1 - w.x0
  derr : w.derr = 2 * (w.y1 - w.y0).natAbs
  ystep : w.ystep = sgn (w.y1 - w.y0)
  dxNonneg : 0 ≤ w.dx
  shallow : ((w.y1 - w.y0).natAbs : Int) ≤ w.dx
  err : w.err = 0
  x : w.x = w.x0
  y : w.y = w.y0

theorem startLine_normalised (w : Work) (x0 y0 x1 y1 : Int) : Normalised (w.startLine x0 y0 x1 y1) := by
  have hs : steepOf x0 y0 x1 y1 = true ↔ (x0 - x1).natAbs < (y0 - y1).natAbs := by simp [steepOf]
  unfold Work.startLine
  cases h : steepOf x0 y0 x1 y1 <;> simp only [h, Bool.false_eq_true, false_iff, true_iff, if_true, if_false] at hs ⊢
  · constructor <;> dsimp only <;> split_ifs <;> first | rfl | (dsimp only at *; omega)
  · constructor <;> dsimp only <;> split_ifs <;> first | rfl | (dsimp only at *; omega)

/-- The two ends of the normalised line are the operand points, before the steep un-swap (R131). -/
theorem startLine_ends (w : Work) (x0 y0 x1 y1 : Int) :
    let u := w.startLine x0 y0 x1 y1
    let p : Point := if u.steep then ⟨u.y0, u.x0⟩ else ⟨u.x0, u.y0⟩
    let q : Point := if u.steep then ⟨u.y1, u.x1⟩ else ⟨u.x1, u.y1⟩
    (p = ⟨x0, y0⟩ ∧ q = ⟨x1, y1⟩) ∨ (p = ⟨x1, y1⟩ ∧ q = ⟨x0, y0⟩) := by
  unfold Work.startLine
  cases steepOf x0 y0 x1 y1 <;> dsimp only <;> split_ifs <;> simp_all

/-- One whole iteration of the walk on the registers. -/
def Work.iterate (w : Work) : Nat → Work
  | 0 => w
  | k + 1 => (w.iterate k).update.advance

/-- The registers an iteration leaves alone. -/
structure SameLine (w u : Work) : Prop where
  steep : u.steep = w.steep
  x0 : u.x0 = w.x0
  y0 : u.y0 = w.y0
  x1 : u.x1 = w.x1
  y1 : u.y1 = w.y1
  dx : u.dx = w.dx
  derr : u.derr = w.derr
  ystep : u.ystep = w.ystep
  v0 : u.v0 = w.v0
  v1 : u.v1 = w.v1
  v2 : u.v2 = w.v2
  edge : u.edge = w.edge
  nb : u.nb = w.nb

theorem update_sameLine (w : Work) : SameLine w w.update := by
  unfold Work.update
  split <;> constructor <;> rfl

theorem SameLine.trans {w u v : Work} (h : SameLine w u) (h' : SameLine u v) : SameLine w v := by
  cases h; cases h'; constructor <;> simp_all

theorem iterate_sameLine (w : Work) (k : Nat) : SameLine w (w.iterate k) := by
  induction k with
  | zero => constructor <;> rfl
  | succ k ih =>
    have h := ih.trans (update_sameLine _)
    exact ⟨h.1, h.2, h.3, h.4, h.5, h.6, h.7, h.8, h.9, h.10, h.11, h.12, h.13⟩

theorem iterate_update_advance (w : Work) (k : Nat) : w.update.advance.iterate k = (w.iterate k).update.advance := by
  induction k with
  | zero => rfl
  | succ k ih => simp only [Work.iterate, ih]

@[simp] theorem lineTrace_length (n : Nat) (w : Work) : (lineTrace n w).length = n + 1 := by
  induction n generalizing w with
  | zero => rfl
  | succ n ih => simp [lineTrace, ih]

/-- The registers at the `k`-th plot. -/
theorem lineTrace_getElem? {n k : Nat} (w : Work) (h : k ≤ n) : (lineTrace n w)[k]? = some (w.iterate k) := by
  induction n generalizing w k with
  | zero => obtain rfl : k = 0 := by omega
            rfl
  | succ n ih =>
    cases k with
    | zero => rfl
    | succ k =>
      rw [lineTrace, List.getElem?_cons_succ, ih _ (by omega), iterate_update_advance]; rfl

theorem mem_lineTrace {n : Nat} {w u : Work} (h : u ∈ lineTrace n w) : ∃ k ≤ n, u = w.iterate k := by
  obtain ⟨k, hk, e⟩ := List.getElem_of_mem h
  have hk' : k ≤ n := by rw [lineTrace_length] at hk; omega
  refine ⟨k, hk', ?_⟩
  have := lineTrace_getElem? w hk'
  rw [List.getElem?_eq_getElem hk, e] at this
  exact Option.some.inj this

/-- Where the walk stands after `k` iterations: `s` steps of the minor coordinate have been made, and the accumulator holds
`2*|dy|*k - 2*dx*s`, in `-dx+1 .. dx` (R134 (d), R135). -/
theorem iterate_position {w : Work} (hw : Normalised w) (k : Nat) :
    ∃ s : Int, 0 ≤ s ∧ (w.iterate k).x = w.x0 + k ∧ (w.iterate k).y = w.y0 + w.ystep * s ∧
      (w.iterate k).err = w.derr * k - 2 * (w.dx * s) ∧
      (w.dx = 0 → s = 0 ∧ w.derr = 0) ∧ (0 < w.dx → -w.dx < (w.iterate k).err ∧ (w.iterate k).err ≤ w.dx) := by
  have h1 := hw.derr
  have h2 := hw.dxNonneg
  have h3 := hw.shallow
  induction k with
  | zero => exact ⟨0, le_rfl, by simp [Work.iterate, hw.x], by simp [Work.iterate, hw.y], by simp [Work.iterate, hw.err],
      fun h => ⟨rfl, by omega⟩, fun h => by simp [Work.iterate, hw.err]; omega⟩
  | succ k ih =>
    obtain ⟨s, hs, hx, hy, he, hz, hr⟩ := ih
    have hl := iterate_sameLine w k
    have hmul : w.derr * ((k : Int) + 1) = w.derr * k + w.derr := by ring
    simp only [Work.iterate, Work.update, Work.advance, hl.dx, hl.derr, hl.ystep]
    split
    · refine ⟨s + 1, by omega, ?_, ?_, ?_, fun h => ?_, fun h => ?_⟩
      · push_cast; omega
      · simp only [hy]; ring
      · push_cast; simp only [he, hmul]; ring
      · obtain ⟨rfl, hd⟩ := hz h
        rw [hd, h] at he
        simp only [zero_mul, mul_zero, sub_zero] at he
        omega
      · have := hr h; dsimp only; omega
    · refine ⟨s, hs, ?_, hy, ?_, hz, fun h => ?_⟩
      · push_cast; omega
      · push_cast; simp only [he, hmul]; ring
      · have := hr h; dsimp only; omega

end Sys2Proof.Machine
end

