-- ==== Sys2Proof/Laws/PerInstr.lean ====
section
/-! SUPPORT. Per instruction: the opcode byte and the reserved field of its encoding (30_encoding.md R70 to R72). -/

namespace Sys2Proof.Laws.EncodedHeader

open Sys2Proof

/-- The opcode of each command (R71). -/
def opcodeOf : Instr → BitVec 8
  | .create _ _ _ _ => 0x01
  | .release => 0x02
  | .setpoint _ _ _ => 0x03
  | .getpoint _ _ => 0x04
  | .line _ _ _ _ _ => 0x05
  | .tri _ _ _ _ _ _ _ => 0x06
  | .filln _ _ _ => 0x07

/-- The encoding's first word is the opcode with a zero reserved field above it. -/
def Statement (i : Instr) : Prop := packetOpcode (encode i) = opcodeOf i ∧ packetRsv0 (encode i) = 0

theorem create (width height name maxValue : Word32) : Statement (.create width height name maxValue) :=
  ⟨(packetOpcode_packetOf ..).trans rfl, (packetRsv0_packetOf ..).trans (by decide)⟩

theorem release : Statement .release :=
  ⟨(packetOpcode_packetOf ..).trans rfl, (packetRsv0_packetOf ..).trans (by decide)⟩

theorem setpoint (row col value : Word32) : Statement (.setpoint row col value) :=
  ⟨(packetOpcode_packetOf ..).trans rfl, (packetRsv0_packetOf ..).trans (by decide)⟩

theorem getpoint (row col : Word32) : Statement (.getpoint row col) :=
  ⟨(packetOpcode_packetOf ..).trans rfl, (packetRsv0_packetOf ..).trans (by decide)⟩

theorem line (x0 y0 x1 y1 color : Word32) : Statement (.line x0 y0 x1 y1 color) :=
  ⟨(packetOpcode_packetOf ..).trans rfl, (packetRsv0_packetOf ..).trans (by decide)⟩

theorem tri (x0 y0 x1 y1 x2 y2 color : Word32) : Statement (.tri x0 y0 x1 y1 x2 y2 color) :=
  ⟨(packetOpcode_packetOf ..).trans rfl, (packetRsv0_packetOf ..).trans (by decide)⟩

theorem filln (x y color : Word32) : Statement (.filln x y color) :=
  ⟨(packetOpcode_packetOf ..).trans rfl, (packetRsv0_packetOf ..).trans (by decide)⟩

end Sys2Proof.Laws.EncodedHeader
end

