-- ==== Sys2Proof/Tests/Slice0.lean ====
section
/-! SUPPORT. Tests against spec/95_test_vectors.md and the worked examples of the rules, then a witness for the hypotheses of each
obligation. Packets are written as R82 prints them, `W0 .. W7`; expected results are the spec's. -/

namespace Sys2Proof.Tests

open Sys2Proof Sys2Proof.Machine

/-! ### Helpers -/

/-- `MEM_WORDS = 64`, the spec's defaults for the rest: the vectors' usual parameters. -/
def p64 : Params := { memWords := 64, axisMap := .xrow, hasFilln := true }

/-- A unit that holds an image of these dimensions, its first `words` words drawn as the byte `b` in every lane. -/
def holding (p : Params) (width height : Word32) (words : Nat) (b : Byte) : State :=
  { State.resetOf p with live := true, width := width, height := height,
                         mem := { cells := (List.range (8 * words)).map fun k => (k, b), draws := [words] } }

/-- The image of vectors V8: 10 x 2, every word `A5A5A5A5A5A5A5A5`. -/
def img10x2 : State := holding p64 10 2 4 0xA5

/-- The 4 x 4 image of vectors V2 and V3. -/
def img4x4 : State := holding p64 4 4 4 0

/-- The 3 x 3 image of vectors V4. -/
def img3x3 : State := holding p64 3 3 3 0

/-- A placeholder: a live image without a buffer. -/
def placeholder : State := { State.resetOf p64 with live := true }

/-- The state of program P5 after its failed CREATE. -/
def halted : State := { State.resetOf { p64 with memWords := 16 } with halt := true }

/-- The state a step or command ends in, if it does not stop. -/
def after : Host.Outcome State Fault Refusal → Option State
  | .next t => some t
  | .fault _ => none
  | .refused _ => none

/-- The response offered, as printed. -/
def answer (o : Host.Outcome State Fault Refusal) : Option (List Word32) := (after o).map fun t => rspWords t.rsp

/-- The listed words of BUF afterwards. -/
def words (o : Host.Outcome State Fault Refusal) (is : List Nat) : Option (List Word64) :=
  (after o).map fun t => is.map t.mem.readWord

/-! ### Well-formedness: the one check, and an ill-formed term it refuses -/

theorem test_filln_is_ill_formed_without_HAS_FILLN :
    (Instr.filln 1 1 1).wellFormed { p64 with hasFilln := false } = false := by decide

/-- V4.7. -/
theorem test_filln_packet_is_refused_without_HAS_FILLN :
    decode { p64 with hasFilln := false } (packetOf 0x00000007 0x00000001 0x00000001 0 0 0 0 0x00000001)
      = .error .illegalOpcode := by decide

/-! ### Decoding: words written out from the spec's encodings -/

/-- R111's example. -/
theorem test_decode_create :
    decode p64 (packetOf 0x00000001 0x0000000A 0x00000002 0 0 0 0 0x000000FF) = .ok (.create 10 2 0 255) := by decide

/-- P6 step 3: `name` is in W3. -/
theorem test_decode_create_name :
    decode p64 (packetOf 0x00000001 0x00000003 0x00000002 0x00001000 0 0 0 0x000000FF)
      = .ok (.create 3 2 0x1000 255) := by decide

/-- R112. -/
theorem test_decode_release : decode p64 (packetOf 0x00000002 0 0 0 0 0 0 0) = .ok .release := by decide

/-- R82: the packet as one number. -/
theorem test_decode_setpoint :
    decodeTableWord 256 0x0000012300000000000000000000000000000000000000030000000100000003
      = some (.setpoint 1 3 0x123) := by decide

/-- V8.8. -/
theorem test_decode_getpoint :
    decode p64 (packetOf 0x00000004 0x00000001 0x00000003 0 0 0 0 0) = .ok (.getpoint 1 3) := by decide

/-- V2.1. -/
theorem test_decode_line :
    decode p64 (packetOf 0x00000005 0 0 0x00000006 0x00000003 0 0 0x00000009) = .ok (.line 0 0 6 3 9) := by decide

/-- P3: TRI 5,10,0,0,10,0,7. -/
theorem test_decode_tri :
    decode p64 (packetOf 0x00000006 0x00000005 0x0000000A 0 0 0x0000000A 0 0x00000007)
      = .ok (.tri 5 10 0 0 10 0 7) := by decide

/-- V4.5. -/
theorem test_decode_filln :
    decode p64 (packetOf 0x00000007 0x7FFFFFFF 0 0 0 0 0 0x00000001) = .ok (.filln 0x7FFFFFFF 0 1) := by decide

/-- V9.1 to V9.10: each illegal packet and its ground. -/
theorem test_illegal_packets :
    [decode p64 (packetOf 0 0 0 0 0 0 0 0), decode p64 (packetOf 0x08 0 0 0 0 0 0 0),
     decode p64 (packetOf 0xFF 0 0 0 0 0 0 0), decode p64 (packetOf 0x0101 0 0 0 0 0 0 0),
     decode p64 (packetOf 0x02 0 0 0 0 0 0 1), decode p64 (packetOf 0x04 0 0 0 0 0 0 5),
     decode p64 (packetOf 0x03 0 0 1 0 0 0 0), decode p64 (packetOf 0x05 0 0 0 0 1 0 0),
     decode p64 (packetOf 0x01 1 1 0 1 0 0 0), decode p64 (packetOf 0x07 0 0 0 0 0 1 0)]
      = [.error .illegalOpcode, .error .illegalOpcode, .error .illegalOpcode, .error .reservedField,
         .error .reservedWord, .error .reservedWord, .error .reservedWord, .error .reservedWord,
         .error .reservedWord, .error .reservedWord] := by decide

/-- R82, R71: the encoder prints R133's example as the spec does. -/
theorem test_encode_line :
    packetWords (encode (.line 0 0 10 5 0x1FF)) = [0x00000005, 0, 0, 0x0000000A, 0x00000005, 0, 0, 0x000001FF] := by decide

/-! ### Index decoder and lanes -/

/-- V5.5, V5.8, V5.15: word index and bit offset. -/
theorem test_index :
    [index 10 1 3, index 8 2 7, index 4294967295 1 4294967294] = [⟨2, 24⟩, ⟨4, 56⟩, ⟨1073741823, 48⟩] := by decide

/-- V5.16 to V5.18, V5.24, V5.25: just outside an image. -/
theorem test_out_of_bounds :
    [inBounds img10x2 0 10, inBounds img10x2 2 0, inBounds img10x2 0 15, inBounds img4x4 (-1) 0, inBounds img4x4 0 (-1),
     inBounds img10x2 1 9] = [false, false, false, false, false, true] := by decide

/-- V6.4 to V6.8, V6.10. -/
theorem test_lane_insert :
    [laneInsert 0x1716151413121110 24 0xAB, laneInsert 0x1716151413121110 56 0x1FF, laneInsert 0x1716151413121110 8 0x100,
     laneInsert 0xA5A5A5A5A5A5A5A5 24 0x123, laneInsert 0x0123456789ABCDEF 32 0xFFFFFFFF, laneInsert 0 0 300]
      = [0x17161514AB121110, 0xFF16151413121110, 0x1716151413120010, 0xA5A5A5A523A5A5A5, 0x012345FF89ABCDEF, 0x2C] := by decide

/-- V6's last paragraph. -/
theorem test_lane_extract :
    [laneExtract 0x1716151413121110 0, laneExtract 0x1716151413121110 8, laneExtract 0x1716151413121110 56,
     laneExtract 0x8000000000000000 56, laneExtract 0x00000000FF000000 24, laneExtract 0x00000000FF000000 32]
      = [0x10, 0x11, 0x17, 0x80, 0xFF, 0x00] := by decide

/-! ### CREATE, RELEASE, SETPOINT, GETPOINT -/

/-- V7.8: `need == MEM_WORDS` succeeds. -/
theorem test_create_fits_exactly :
    (after (exec (.create 56 2 0 255) (State.resetOf { p64 with memWords := 16 }))).map
      (fun t => (t.live, t.halt, t.stride, t.size, rspWords t.rsp)) = some (true, false, 8, 16, [0, 0, 0, 0]) := by decide

/-- V7.7, P5: 18 words where there are 16. -/
theorem test_create_fails :
    (after (exec (.create 64 2 0 255) (State.resetOf { p64 with memWords := 16 }))).map
      (fun t => (t.live, t.halt, t.width, rspWords t.rsp)) = some (false, true, 0, [2, 0, 0, 0]) := by decide

/-- R112: a placeholder can be released (V7.23). -/
theorem test_release_placeholder :
    (after (exec .release placeholder)).map (fun t => (t.live, rspWords t.rsp)) = some (false, [0, 0, 0, 0]) := by decide

/-- V7.19. -/
theorem test_release_without_image : answer (exec .release (State.resetOf p64)) = some [3, 0, 0, 0] := by decide

/-- V8.5: masked to 8 bits, one lane. -/
theorem test_setpoint : words (exec (.setpoint 1 3 0x123) img10x2) [1, 2, 3] =
    some [0xA5A5A5A5A5A5A5A5, 0xA5A5A5A523A5A5A5, 0xA5A5A5A5A5A5A5A5] := by decide

/-- V8.13. -/
theorem test_setpoint_outside :
    answer (exec (.setpoint 4294967295 4294967295 1) img10x2) = some [1, 0xFFFFFFFF, 0xFFFFFFFF, 0] := by decide

/-- V8.10. -/
theorem test_getpoint : answer (exec (.getpoint 1 0) img10x2) = some [0x0000A500, 0, 0, 0] := by decide

/-- V8.11. -/
theorem test_getpoint_outside : answer (exec (.getpoint 0 10) img10x2) = some [1, 0, 0x0000000A, 0] := by decide

/-! ### LINE, TRI, FILLN -/

/-- V1.13, V1.19, V1.8: steep with negative step, shallow with negative step, one point. -/
theorem test_line_points :
    [linePoints 2 7 5 0, linePoints 0 3 4 0, linePoints 3 3 3 3] =
      [[⟨5, 0⟩, ⟨5, 1⟩, ⟨4, 2⟩, ⟨4, 3⟩, ⟨3, 4⟩, ⟨3, 5⟩, ⟨2, 6⟩, ⟨2, 7⟩], [⟨0, 3⟩, ⟨1, 2⟩, ⟨2, 2⟩, ⟨3, 1⟩, ⟨4, 0⟩], [⟨3, 3⟩]] := by
  decide

/-- V2.1: four pixels, then the fault at (4, 2); P4's words. -/
theorem test_line_fault : answer (exec (.line 0 0 6 3 9) img4x4) = some [1, 4, 2, 0] ∧
    words (exec (.line 0 0 6 3 9) img4x4) [0, 1, 2, 3] = some [0x09, 0x09, 0x0900, 0x0900] := by decide

/-- V2.5: `AXIS_MAP = XCOL`. -/
theorem test_line_xcol :
    answer (exec (.line 0 0 10 5 1) (holding { p64 with axisMap := .xcol } 11 6 12 0)) = some [0, 0, 0, 0] ∧
    words (exec (.line 0 0 10 5 1) (holding { p64 with axisMap := .xcol } 11 6 12 0)) [0, 2, 4, 6, 9, 11, 10] =
      some [0x101, 0x1010000, 0x10100000000, 0x101000000000000, 0x101, 0x10000, 0] := by decide

/-- V3.3: edge 1 faults at (4, 2) after its first plot. -/
theorem test_tri_fault : answer (exec (.tri 0 0 3 3 5 1 1) img4x4) = some [1, 4, 2, 0] ∧
    words (exec (.tri 0 0 3 3 5 1 1) img4x4) [0, 1, 2, 3] = some [0x01, 0x0100, 0x010000, 0x01000000] := by decide

/-- V3.5 and V3.6: operand order among vertices of equal x decides where the fault is. -/
theorem test_tri_order : answer (exec (.tri 3 1 3 5 1 2 1) img4x4) = some [1, 2, 4, 0] ∧
    answer (exec (.tri 3 5 3 1 1 2 1) img4x4) = some [1, 3, 4, 0] := by decide

/-- V4.1. -/
theorem test_filln : words (exec (.filln 1 1 0xAB) img3x3) [0, 1, 2] = some [0xAB00, 0xAB00AB, 0xAB00] := by decide

/-- V4.2 on a fresh image, V4.5: the first failing neighbour is reported, with 32 low bits. -/
theorem test_filln_fault : answer (exec (.filln 0 1 0xCD) img3x3) = some [1, 0xFFFFFFFF, 1, 0] ∧
    answer (exec (.filln 2147483647 0 1) img3x3) = some [1, 0x80000000, 0, 0] := by decide

/-! ### Steps -/

/-- P5 step 2: a halted unit never accepts. -/
theorem test_halted_unit_is_stuck :
    step { halted with chan := some (encode .release) } = .fault .halted := rfl

/-- R190: reset is the way out of the halted state. -/
theorem test_reset_clears_halt : (after (step { halted with host := [.reset] })).map (fun t => (t.halt, t.phase)) =
    some (false, .idle) := by decide

/-- R194: "A run that reaches `HALT == 1` never ends", P5 with its response taken. -/
theorem test_halted_run_has_not_ended :
    ∃ t, step { halted with phase := .resp, host := [.take] } = .next t ∧ t.phase = .idle ∧ t.host = [] ∧ ¬ RunEnded t :=
  ⟨_, rfl, rfl, rfl, fun h => nomatch h.running⟩

/-- R194: a run whose last response was OK, with no image held, has ended cleanly; the OutOfBounds of an earlier run does not
count. -/
theorem test_run_ends_cleanly :
    ∃ t, step { State.resetOf p64 with phase := .resp, rsp := 0, host := [.take], pastRuns := [[1]] } = .next t ∧
      RunEndedCleanly t :=
  ⟨_, rfl, ⟨rfl, rfl, rfl, rfl, nofun⟩, fun Q h => by cases List.mem_singleton.mp h; rfl, rfl, rfl⟩

/-- The run of `CREATE 0, 0` with its response taken: ended, but not cleanly, since the image is held (R194). -/
def createdThenReset : State := { placeholder with taken := [0], host := [.reset] }

theorem createdThenReset_ended : RunEnded createdThenReset := ⟨rfl, rfl, rfl, rfl, nofun⟩

/-- R194: the reset after it starts another run, which it does not make end cleanly. -/
theorem test_reset_between_commands_starts_a_new_run : ¬ RunEndedCleanly createdThenReset ∧
    ∃ t, step createdThenReset = .next t ∧ t.phase = .idle ∧ t.live = false ∧ ¬ RunEnded t ∧ t.pastRuns = [[0]] :=
  ⟨fun h => (nomatch h.2.2.2), _, rfl, rfl, rfl, fun h => h.answered rfl, rfl⟩

/-- Log 11: before a halted unit a reset listed behind a blocked packet is never asserted. -/
theorem test_reset_behind_a_blocked_packet :
    step { halted with chan := some (encode .release), host := [.present (encode .release), .reset] } = .fault .halted := rfl

/-- R78: the host presents; the unit executes and offers; the host takes. -/
theorem test_command_goes_through_the_channels :
    (((after (step { img10x2 with host := runMoves [encode (.getpoint 1 0)] })).bind fun s => after (step s)).bind
      fun s => after (step s)).map (fun t => (t.phase, t.taken.map rspWords, t.host)) =
        some (.idle, [[0x0000A500, 0, 0, 0]], []) := by decide

/-- V9.13: decode comes before the lifecycle check. -/
theorem test_illegal_before_invalid :
    answer (step ((State.resetOf p64).withFetchWord 256 (1 <<< 224 + 2))) = some [4, 0, 0, 0] := by decide

/-- The seven match words of the opcode table, as the first command after reset: CREATE makes a placeholder, the others find no
image (R110). -/
theorem test_every_row_runs_after_reset :
    [1, 2, 3, 4, 5, 6, 7].map (fun w => answer (step (State.reset.withFetchWord 256 w))) =
      [some [0, 0, 0, 0], some [3, 0, 0, 0], some [3, 0, 0, 0], some [3, 0, 0, 0], some [3, 0, 0, 0], some [3, 0, 0, 0],
       some [3, 0, 0, 0]] := by decide

/-! ### Host sequences -/

/-- R80: the text puts CREATE's name first. -/
theorem test_create_text : commandText (.create 10 2 0 255) = "CREATE 0, 10, 2, 255" := by decide

/-- P4 step 4: a negative coordinate. -/
theorem test_line_text : commandText (.line 0xFFFFFFFF 0 2 0 5) = "LINE -1, 0, 2, 0, 5" := by decide

/-- P6: what IMG.READ issues for 3 x 2 pixels and one token too many. -/
theorem test_img_read : imgRead 0x1000 3 2 255 [1, 2, 3, 4, 5, 300, 9] =
    [.create 3 2 0x1000 255, .setpoint 0 0 1, .setpoint 0 1 2, .setpoint 0 2 3, .setpoint 1 0 4, .setpoint 1 1 5,
     .setpoint 1 2 300] := by decide

/-! ### Witnesses: concrete states and operands that meet the hypotheses of each obligation, its clauses at their boundaries -/

/-- The image of V8 with a command presented. -/
def presenting (i : Instr) : State := { img10x2 with chan := some (encode i) }

theorem img10x2_inv : Inv img10x2 :=
  { noImage := by decide, fits := by decide, notBusy := by decide, canonical := by decide, inside := by decide }

theorem img10x2_workFits : WorkFits img10x2.work :=
  { ends := by decide, dx := by decide, derr := by decide, ystep := by decide, err := by decide, x := by decide, y := by decide,
    vertices := by decide }

theorem witness_EncodeThenDecodeReturnsTheCommand :
    (Instr.filln 1 1 0xAB).wellFormed p64 = true ∧
    (Instr.create 0xFFFFFFFF 0 1 2).wellFormed { p64 with hasFilln := false } = true := by decide

/-- V9.12. -/
theorem witness_DecodedPacketIsTheEncodingOfItsCommand :
    decode p64 (packetOf 0x00000006 0xFFFFFFFF 0xFFFFFFFF 0xFFFFFFFF 0xFFFFFFFF 0xFFFFFFFF 0xFFFFFFFF 0xFFFFFFFF)
      = .ok (.tri 0xFFFFFFFF 0xFFFFFFFF 0xFFFFFFFF 0xFFFFFFFF 0xFFFFFFFF 0xFFFFFFFF 0xFFFFFFFF) := by decide

/-- The three clauses of the last premise, opcodes `0x08` and `0xFF` at the ends of the range. -/
theorem witness_PacketSelectsACommandByMatchAndMask :
    packetOpcode 0 = 0x00 ∧ 0x08 ≤ (packetOpcode 8).toNat ∧ 0x08 ≤ (packetOpcode 0xFF).toNat ∧
    (packetOpcode 7 = 0x07 ∧ ({ p64 with hasFilln := false } : Params).hasFilln = false) := by decide

/-- One packet for each ground of R74: `0x00`, `0x08`, an absent FILLN, `rsv0`, and a dash of each command that has one. -/
theorem witness_IllegalPacketChangesNothing :
    (∀ P ∈ [(0 : Packet), 8, 0x0101, packetOf 1 1 1 0 1 0 0 0, packetOf 2 0 0 0 0 0 0 1, packetOf 3 0 0 1 0 0 0 0,
        packetOf 4 0 0 0 0 0 0 5, packetOf 5 0 0 0 0 1 0 0, packetOf 7 0 0 0 0 0 1 0],
      State.accepts { img10x2 with chan := some P } = some P ∧ IllegalPacket img10x2.cfg P) ∧
    IllegalPacket { p64 with hasFilln := false } 7 ∧ ¬ IllegalPacket p64 7 := by
  refine ⟨?_, ?_, ?_⟩
  · simp only [List.forall_mem_cons, IllegalPacket]
    refine ⟨?_, ?_, ?_, ?_, ?_, ?_, ?_, ?_, ?_, nofun⟩ <;> refine ⟨rfl, ?_⟩ <;> decide
  · simp only [IllegalPacket]; decide
  · simp only [IllegalPacket]; decide

theorem witness_StepRunsTheDecodedCommand :
    (presenting .release).phase = .idle ∧ (presenting .release).halt = false ∧
    (presenting .release).chan = some (packetOf 2 0 0 0 0 0 0 0) ∧
    decode (presenting .release).cfg (packetOf 2 0 0 0 0 0 0 0) = .ok .release := by decide

/-- Each clause, with both premises on the response: a byte that is not zero (V8.10), and a status that is not OutOfBounds; and an
illegal packet accepted (V9.4). -/
theorem witness_EveryResponseHasTheFormOfR76 :
    (presenting (.getpoint 1 0)).accepts = some (encode (.getpoint 1 0)) ∧
    (∃ t, step (presenting (.getpoint 1 0)) = .next t ∧ rspData t.rsp ≠ 0 ∧ rspStatus t.rsp ≠ 0x01) ∧
    (State.accepts { img10x2 with chan := some 0x0101 } = some 0x0101 ∧ IllegalPacket img10x2.cfg 0x0101) ∧
    (∃ t, exec (.getpoint 1 0) img10x2 = .next t ∧ rspData t.rsp ≠ 0 ∧ rspStatus t.rsp ≠ 0x01) := by
  refine ⟨rfl, ⟨_, rfl, by decide⟩, ⟨rfl, ?_⟩, _, rfl, by decide⟩
  simp only [IllegalPacket]; decide

/-- The first and the last pixel. -/
theorem witness_IndexStaysInsideTheBuffer :
    Inv img10x2 ∧ inBounds img10x2 0 0 = true ∧ inBounds img10x2 1 9 = true := ⟨img10x2_inv, by decide⟩

/-- Two pixels of different words and two of one word. -/
theorem witness_IndexIsInjectiveOnThePixels :
    inBounds img10x2 0 7 = true ∧ inBounds img10x2 0 8 = true ∧ ¬ ((0 : Int) = 0 ∧ (7 : Int) = 8) ∧
    inBounds img10x2 1 8 = true ∧ inBounds img10x2 1 9 = true ∧ ¬ ((1 : Int) = 1 ∧ (8 : Int) = 9) := by decide

theorem witness_LanesArePackedIndependently :
    (0 < 8 ∧ 7 < 8 ∧ 7 ≠ 0) ∧ (∃ t, setPoint 1 3 0x123 img10x2 = .going t) ∧
    inBounds img10x2 1 4 = true ∧ ¬ ((1 : Int) = 1 ∧ (4 : Int) = 3) := ⟨by decide, ⟨_, rfl⟩, by decide⟩

/-- The last pixel, and the first column and row beyond each edge. -/
theorem witness_SetPointReadsInsertsAndWritesTheWord :
    inBounds img10x2 1 9 = true ∧ inBounds img10x2 1 10 = false ∧ inBounds img10x2 2 0 = false ∧
    inBounds img10x2 (-1) 0 = false ∧ inBounds img10x2 0 (-1) = false := by decide

/-- The last lane of the last word of a row, and a spare lane (lane 2 of word 1) that no pixel has. -/
theorem witness_SpareLanesAreNeverWritten :
    (1 < img10x2.height.toNat ∧ 1 < img10x2.stride ∧ 7 < 8) ∧
    (∃ t, exec (.setpoint 1 9 1) img10x2 = .next t) ∧ (∀ w h n m, Instr.setpoint 1 9 1 ≠ .create w h n m) ∧
    (∀ row col, inBounds img10x2 row col = true → pixelAddr img10x2 row col ≠ ⟨1, 8 * 2⟩) := by
  refine ⟨by decide, ⟨_, rfl⟩, nofun, fun row col h e => ?_⟩
  rw [inBounds_iff, show img10x2.height.toNat = 2 from rfl, show img10x2.width.toNat = 10 from rfl] at h
  have hw := congrArg LaneAddr.word e
  have hb := congrArg LaneAddr.bit e
  rw [pixelAddr_word, show strideOf img10x2.width.toNat = 2 from rfl] at hw
  rw [pixelAddr_bit] at hb
  dsimp only at hw hb
  omega

/-- V7.8: `need == MEM_WORDS`; and the second CREATE on a placeholder. -/
theorem witness_CreateMakesTheImage :
    (let s := State.resetOf { p64 with memWords := 16 }
     s.halt = false ∧ s.alloc = false ∧ needOf (56 : Word32).toNat (2 : Word32).toNat = s.cfg.memWords) ∧
    (placeholder.halt = false ∧ placeholder.alloc = false ∧
      needOf (10 : Word32).toNat (2 : Word32).toNat ≤ placeholder.cfg.memWords) := by decide

/-- V7.12: `need == MEM_WORDS + 1`. -/
theorem witness_CreateBeyondCapacityHaltsTheUnit :
    let s := State.resetOf p64
    s.halt = false ∧ s.alloc = false ∧ needOf (512 : Word32).toNat (1 : Word32).toNat = s.cfg.memWords + 1 := by decide

theorem witness_ReleaseDestroysTheImage : img10x2.halt = false ∧ img10x2.live = true := by decide

/-- Both sides of the table: CREATE over an image with a buffer, any other command without an image. -/
theorem witness_InvalidStateExactlyByTheLifecycleTable :
    (img10x2.halt = false ∧ (Instr.create 1 1 0 0).wellFormed img10x2.cfg = true ∧
      lifecycleProceeds img10x2 (.create 1 1 0 0) = false) ∧
    ((State.resetOf p64).halt = false ∧ (Instr.filln 1 1 1).wellFormed p64 = true ∧
      lifecycleProceeds (State.resetOf p64) (.filln 1 1 1) = false ∧
      lifecycleProceeds (State.resetOf p64) (.create 1 1 0 0) = true) := by decide

/-- The last pixel. -/
theorem witness_SetpointWritesOneLane :
    img10x2.halt = false ∧ img10x2.live = true ∧ (1 : Word32).toNat < img10x2.height.toNat ∧
    (9 : Word32).toNat < img10x2.width.toNat := by decide

theorem witness_GetpointReturnsTheByte :
    img10x2.halt = false ∧ img10x2.live = true ∧ (0 : Word32).toNat < img10x2.height.toNat ∧
    (9 : Word32).toNat < img10x2.width.toNat := by decide

/-- `row == HEIGHT`, and `col == WIDTH` although the word has a lane for it. -/
theorem witness_PixelAccessOutsideTheImageIsReported :
    img10x2.halt = false ∧ img10x2.live = true ∧
    (img10x2.height.toNat ≤ (2 : Word32).toNat ∨ img10x2.width.toNat ≤ (0 : Word32).toNat) ∧
    (img10x2.height.toNat ≤ (0 : Word32).toNat ∨ img10x2.width.toNat ≤ (10 : Word32).toNat) ∧
    (Instr.getpoint 2 0 = .setpoint 2 0 1 ∨ Instr.getpoint 2 0 = .getpoint 2 0) := by decide

theorem witness_SetpointUsesTheValueModulo256 : (0x123 : Word32).toNat % 256 = (0x23 : Word32).toNat % 256 := by decide

/-- Each of the premises: V1.3, V1.4, V1.5, V1.6 with its ends exchanged, 45 degrees, and the three signs of the slope. -/
theorem witness_LineIsNormalisedAsR131Says :
    (¬ ((0 : Int) - 10).natAbs < ((0 : Int) - 10).natAbs ∧ (0 : Int) ≤ 10) ∧
    (¬ ((10 : Int) - 0).natAbs < ((5 : Int) - 0).natAbs ∧ (0 : Int) < 10) ∧
    (((0 : Int) - 5).natAbs < ((0 : Int) - 10).natAbs ∧ (0 : Int) ≤ 10) ∧
    (((5 : Int) - 10).natAbs < ((10 : Int) - 0).natAbs ∧ (0 : Int) < 10) ∧
    (lineStart 0 0 10 5).y0 < (lineStart 0 0 10 5).y1 ∧ (lineStart 0 0 10 0).y0 = (lineStart 0 0 10 0).y1 ∧
    (lineStart 0 3 4 0).y1 < (lineStart 0 3 4 0).y0 := by decide

/-- V1.3, V1.1 and V1.19: the three values of YSTEP, and a walk with `dx > 0`. -/
theorem witness_LinePointLaws :
    (lineStart 0 0 10 5).ystep = 1 ∧ (lineStart 0 0 10 0).ystep = 0 ∧ (lineStart 0 3 4 0).ystep = -1 ∧
    0 < (lineStart 0 3 4 0).dx ∧ lineStart 0 3 4 0 ∈ lineTrace (lineStart 0 3 4 0).dx.toNat (lineStart 0 3 4 0) := by decide

/-- The first and the last point of V1.13, and the one point of V1.8 (`dx = 0`). -/
theorem witness_LineClosedForm :
    (((0 : Nat) : Int) ≤ (lineStart 2 7 5 0).dx ∧ 0 < (lineStart 2 7 5 0).dx) ∧ ((7 : Nat) : Int) = (lineStart 2 7 5 0).dx ∧
    ((0 : Nat) : Int) = (lineStart 3 3 3 3).dx := by decide

theorem witness_LineFaultsExactlyAtItsEndpoints :
    (⟨4, 2⟩ : Point) ∈ linePoints 0 0 6 3 ∧ img4x4.halt = false ∧ img4x4.live = true := by decide

/-- The diagonal from corner to corner. -/
theorem witness_LineDrawsItsPoints :
    img4x4.halt = false ∧ img4x4.live = true ∧ inBounds img4x4 (0 : Word32).toInt (0 : Word32).toInt = true ∧
    inBounds img4x4 (3 : Word32).toInt (3 : Word32).toInt = true := by decide

theorem witness_RasterizerStopsAtTheFirstFailingPlot :
    ∀ i ∈ [Instr.line 0 0 6 3 9, .tri 0 0 3 3 5 1 9, .filln 0 1 9],
      rasterColor i = some 9 ∧ img4x4.halt = false ∧ img4x4.live = true ∧ i.wellFormed img4x4.cfg = true := by decide

/-- Three x for each of the seven premises. -/
theorem witness_SortByXOrdersThreeVertices :
    ((0 : Int) ≤ 0 ∧ (0 : Int) ≤ 1) ∧ ((0 : Int) ≤ 0 ∧ (0 : Int) < 1) ∧ ((0 : Int) < 1 ∧ (1 : Int) < 2) ∧
    ((0 : Int) < 3 ∧ (3 : Int) = 3) ∧ ((0 : Int) < 1 ∧ (1 : Int) ≤ 1) ∧ ((0 : Int) ≤ 0 ∧ (0 : Int) < 1) ∧
    ((0 : Int) < 1 ∧ (1 : Int) < 2) := by decide

/-- V3.9. -/
theorem witness_TriDrawsTheThreeEdges :
    img4x4.halt = false ∧ img4x4.live = true ∧
    ∀ p ∈ [(⟨(0 : Word32).toInt, (0 : Word32).toInt⟩ : Point), ⟨(0 : Word32).toInt, (3 : Word32).toInt⟩,
        ⟨(3 : Word32).toInt, (0 : Word32).toInt⟩],
      inBounds img4x4 (pixelOf img4x4.cfg.axisMap p).1 (pixelOf img4x4.cfg.axisMap p).2 = true := by decide

/-- V3.9 and its vertices in another order. -/
theorem witness_TriIsIndependentOfTheVertexOrder :
    img4x4.halt = false ∧ img4x4.live = true ∧ img4x4.mem.wf ∧
    (∀ p ∈ [(⟨(0 : Word32).toInt, (0 : Word32).toInt⟩ : Point), ⟨(0 : Word32).toInt, (3 : Word32).toInt⟩,
        ⟨(3 : Word32).toInt, (0 : Word32).toInt⟩],
      inBounds img4x4 (pixelOf img4x4.cfg.axisMap p).1 (pixelOf img4x4.cfg.axisMap p).2 = true) ∧
    [((3 : Word32), (0 : Word32)), (0, 0), (0, 3)].Perm [(0, 0), (0, 3), (3, 0)] := by decide

theorem witness_TriEqualsThreeLinesWhenNoneFaults :
    img4x4.halt = false ∧ img4x4.live = true ∧ img4x4.mem.wf ∧
    ∀ p ∈ [(⟨(0 : Word32).toInt, (0 : Word32).toInt⟩ : Point), ⟨(0 : Word32).toInt, (3 : Word32).toInt⟩,
        ⟨(3 : Word32).toInt, (0 : Word32).toInt⟩],
      inBounds img4x4 (pixelOf img4x4.cfg.axisMap p).1 (pixelOf img4x4.cfg.axisMap p).2 = true := by decide

/-- V4.1: all four neighbours and the centre are in the image. -/
theorem witness_FillnPaintsTheFourNeighbours :
    img3x3.halt = false ∧ img3x3.live = true ∧ img3x3.cfg.hasFilln = true ∧
    (∀ p ∈ [(⟨(1 : Word32).toInt + 1, (1 : Word32).toInt⟩ : Point), ⟨(1 : Word32).toInt - 1, (1 : Word32).toInt⟩,
        ⟨(1 : Word32).toInt, (1 : Word32).toInt + 1⟩, ⟨(1 : Word32).toInt, (1 : Word32).toInt - 1⟩],
      inBounds img3x3 (pixelOf img3x3.cfg.axisMap p).1 (pixelOf img3x3.cfg.axisMap p).2 = true) ∧
    inBounds img3x3 (1 : Word32).toInt (1 : Word32).toInt = true := by decide

/-- The centre on each of the four borders, and a unit without FILLN. -/
theorem witness_FillnAtTheBorderFaults :
    (img3x3.halt = false ∧ img3x3.live = true ∧ img3x3.cfg.hasFilln = true ∧
      ∀ c ∈ [((0 : Word32), (1 : Word32)), (2, 1), (1, 0), (1, 2)],
        let p := pixelOf img3x3.cfg.axisMap ⟨c.1.toInt, c.2.toInt⟩
        inBounds img3x3 p.1 p.2 = true ∧
        (p.1 = 0 ∨ p.1 = img3x3.height.toNat - 1 ∨ p.2 = 0 ∨ p.2 = img3x3.width.toNat - 1)) ∧
    (State.resetOf { p64 with hasFilln := false }).halt = false ∧
    (State.resetOf { p64 with hasFilln := false }).cfg.hasFilln = false := by
  refine ⟨⟨rfl, rfl, rfl, ?_⟩, rfl, rfl⟩
  simp only [List.forall_mem_cons]
  refine ⟨?_, ?_, ?_, ?_, nofun⟩ <;> decide

/-- The premises of the three clauses. -/
theorem witness_PlotCountsAreBounded :
    Instr.line 0 0 10 5 1 = .line 0 0 10 5 1 ∧ Instr.filln 1 1 1 = .filln 1 1 1 ∧ rasterColor (.setpoint 1 3 1) = none :=
  ⟨rfl, rfl, rfl⟩

/-- Each clause: a command, a step without reset (for the frame and for the end of a run), a command presented, a reset. -/
theorem witness_OnlyResetLeavesTheHaltedState :
    halted.halt = true ∧ (∃ t, step halted = .next t) ∧ (∀ moves, halted.host ≠ .reset :: moves) ∧
    (let s := { halted with chan := some (encode .release) }
     s.halt = true ∧ s.phase = .idle ∧ s.chan = some (encode .release) ∧ s.host = []) ∧
    (let s := { halted with host := [.reset] }
     s.halt = true ∧ s.host = .reset :: []) := ⟨rfl, ⟨_, rfl⟩, nofun, by decide⟩

theorem witness_StepStopsOnlyWhenHalted : img10x2.halt = false := rfl

/-- Reset while a response waits to be taken (R192), and of a halted unit with a packet presented. -/
theorem witness_ResetReturnsTheUnitToItsStartState :
    (let s : State := { img10x2 with phase := .resp, host := [.reset, .take] }
     s.accepts = none ∧ s.host = .reset :: [.take] ∧ 0 < s.cfg.memWords) ∧
    (let s : State := { halted with chan := some 2, host := [.reset] }
     s.accepts = none ∧ s.host = .reset :: []) := by decide

/-- A step that accepts a command, one in which the host takes a response, and one that leaves a presented packet waiting. -/
theorem witness_OneResponsePerAcceptedCommand :
    (∃ t, step (presenting .release) = .next t) ∧ (presenting .release).accepts.isSome = true ∧
    (∃ t, step { img10x2 with phase := .resp, host := [.take] } = .next t) ∧
    (∀ moves, ({ img10x2 with phase := .resp, host := [.take] } : State).host ≠ .reset :: moves) ∧
    (State.accepts { presenting .release with phase := .resp } = none ∧ (presenting .release).chan ≠ none) :=
  ⟨⟨_, rfl⟩, by decide, ⟨_, rfl⟩, nofun, by decide⟩

/-- Each clause: an illegal packet, a command the lifecycle forbids, one it allows. -/
theorem witness_FaultsAreReportedInPriorityOrder :
    (State.accepts { img10x2 with chan := some 0 } = some 0 ∧ IllegalPacket p64 0) ∧
    (decode (presenting (.create 1 1 0 0)).cfg (encode (.create 1 1 0 0)) = .ok (.create 1 1 0 0) ∧
      lifecycleProceeds (presenting (.create 1 1 0 0)) (.create 1 1 0 0) = false) ∧
    (decode (presenting .release).cfg (encode .release) = .ok .release ∧
      lifecycleProceeds (presenting .release) .release = true) := by
  simp only [IllegalPacket]; decide

/-- A RELEASE that changes LIVE, and a CREATE that halts the unit. -/
theorem witness_OnlyCreateReleaseAndResetWriteTheDescriptor :
    (∃ t, step (presenting .release) = .next t ∧ t.live ≠ (presenting .release).live) ∧
    (let s := { State.resetOf { p64 with memWords := 16 } with chan := some (encode (.create 64 2 0 255)) }
     s.halt = false ∧ ∃ t, step s = .next t ∧ t.halt = true) :=
  ⟨⟨_, rfl, by decide⟩, rfl, ⟨_, rfl, by decide⟩⟩

theorem witness_MaxvalAndNameAreNeverConsulted : ∃ t, exec (.line 0 0 3 3 9) img4x4 = .next t :=
  exec_total _ rfl

theorem witness_WorkingStateIsWrittenBeforeRead : ∃ t, exec (.tri 0 0 3 3 5 1 1) img4x4 = .next t :=
  exec_total _ rfl

/-- Each clause: a command that keeps the descriptor, one that keeps the registers, one that keeps BUF, a LINE and a SETPOINT with a
lane that is none of their pixels, and CREATEs that need no word and four words. -/
theorem witness_CommandsKeepWhatTheyDoNotWrite :
    (∃ t, exec (.getpoint 1 3) img10x2 = .next t) ∧ Instr.getpoint 1 3 ≠ .release ∧
    (∀ w h n m, Instr.getpoint 1 3 ≠ .create w h n m) ∧ rasterColor (.getpoint 1 3) = none ∧
    (∃ t, exec (.line 0 0 3 3 9) img4x4 = .next t) ∧ rasterColor (.line 0 0 3 3 9) = some 9 ∧
    (∀ w h n m, Instr.line 0 0 3 3 9 ≠ .create w h n m) ∧
    (∀ p ∈ commandPixels img4x4.cfg.axisMap (.line 0 0 3 3 9), pixelAddr img4x4 p.1 p.2 ≠ ⟨0, 8 * 1⟩) ∧
    (∃ t, exec (.setpoint 1 3 1) img10x2 = .next t) ∧ (∀ w h n m, Instr.setpoint 1 3 1 ≠ .create w h n m) ∧
    (∀ p ∈ commandPixels img10x2.cfg.axisMap (.setpoint 1 3 1), pixelAddr img10x2 p.1 p.2 ≠ ⟨2, 8 * 4⟩) ∧
    ((∃ t, exec (.create 0 5 0 0) placeholder = .next t) ∧ needOf (0 : Word32).toNat (5 : Word32).toNat ≤ 0) ∧
    (∃ t, exec (.create 10 2 0 255) placeholder = .next t) ∧ needOf (10 : Word32).toNat (2 : Word32).toNat ≤ 4 :=
  ⟨exec_total _ rfl, nofun, nofun, rfl, exec_total _ rfl, rfl, nofun, by decide, exec_total _ rfl, nofun, by decide,
    ⟨exec_total _ rfl, by decide⟩, exec_total _ rfl, by decide⟩

theorem witness_EveryStepKeepsTheImageInvariants :
    Inv (presenting (.setpoint 1 9 1)) ∧ ∃ t, step (presenting (.setpoint 1 9 1)) = .next t :=
  ⟨{ noImage := by decide, fits := by decide, notBusy := by decide, canonical := by decide, inside := by decide }, ⟨_, rfl⟩⟩

theorem witness_EveryStepKeepsTheRasterizerRanges :
    WorkFits (presenting (.line 0 0 1 9 1)).work ∧ ∃ t, step (presenting (.line 0 0 1 9 1)) = .next t :=
  ⟨img10x2_workFits, ⟨_, rfl⟩⟩

/-- A unit that goes on, and a halted one. -/
theorem witness_TakingTheResponseMakesTheUnitIdle :
    ∀ s ∈ [({ img10x2 with phase := .resp, host := [.take] } : State), { halted with phase := .resp, host := [.take] }],
      s.phase = .resp ∧ s.host = .take :: [] := by decide

/-- The last pixel. -/
theorem witness_ImgWriteReadsEveryPixelInRowMajorOrder :
    1 < img10x2.height.toNat ∧ 9 < img10x2.width.toNat ∧ Instr.getpoint 1 9 ∈ imgWrite img10x2.outputs := by decide

/-- The last pixel of P6. -/
theorem witness_ImgReadFillsTheGridInRowMajorOrder :
    0 < (3 : Word32).toNat ∧ 5 < (imgReadPixels 3 2 [1, 2, 3, 4, 5, 300, 9] 0 0).length ∧
    [1, 2, 3, 4, 5, 300, 9][5]? = some 300 := by decide

/-- Each clause: a last response about to be taken, in a run that ends cleanly and in one that has a fault; the step that ends the
run; a run that has ended; a reset after it; a halted unit. -/
theorem witness_RunEndsWithTheResponseToItsLastCommand :
    (let s := { State.resetOf p64 with phase := .resp, rsp := 0, host := [.take] }
     s.phase = .resp ∧ s.halt = false ∧ s.chan = none ∧ s.host = .take :: [] ∧ noFurtherCommand [] = true) ∧
    (let s := { img10x2 with phase := .resp, rsp := 1, host := [.take, .take, .reset, .present 0] }
     s.phase = .resp ∧ s.halt = false ∧ s.chan = none ∧ s.host = .take :: [.take, .reset, .present 0] ∧
      noFurtherCommand [.take, .reset, .present 0] = true) ∧
    (let s := { State.resetOf p64 with phase := .resp, rsp := 0, host := [.take] }
     ¬ RunEnded s ∧ ∃ t, step s = .next t ∧ RunEnded t) ∧
    (let s := { createdThenReset with host := [] }
     (∃ t, step s = .next t) ∧ RunEnded s ∧ ∀ moves, s.host ≠ .reset :: moves) ∧
    ((∃ t, step createdThenReset = .next t) ∧ createdThenReset.accepts = none ∧ createdThenReset.host = .reset :: []) ∧
    halted.halt = true :=
  ⟨⟨rfl, rfl, rfl, rfl, rfl⟩, ⟨rfl, rfl, rfl, rfl, rfl⟩,
    ⟨fun h => (nomatch h.idle), _, rfl, rfl, rfl, rfl, rfl, nofun⟩, ⟨⟨_, rfl⟩, ⟨rfl, rfl, rfl, rfl, nofun⟩, nofun⟩,
    ⟨⟨_, rfl⟩, rfl, rfl⟩, rfl⟩

end Sys2Proof.Tests
end

/-! The packets that select each command, and what the unit does with the others (30_encoding.md R71, R72, R74): the
settled obligations about the encoding. -/

namespace Sys2Proof

open Laws.EncodedHeader (opcodeOf)

/-! ### The rows of the opcode table -/

/-- The words that R71 marks with a dash in the row of a command. -/
def dashesOf : Instr → List Nat
  | .create _ _ _ _ => [4, 5, 6]
  | .release => [1, 2, 3, 4, 5, 6, 7]
  | .setpoint _ _ _ => [3, 4, 5, 6]
  | .getpoint _ _ => [3, 4, 5, 6, 7]
  | .line _ _ _ _ _ => [5, 6]
  | .tri _ _ _ _ _ _ _ => []
  | .filln _ _ _ => [3, 4, 5, 6]

/-- The rows of R71, each filled with the operands it reads from `P`. A configuration without FILLN has no row for it (R72). -/
inductive CommandRow (p : Params) (P : Packet) : Instr → Prop where
  | create : CommandRow p P (.create (packetWord P 1) (packetWord P 2) (packetWord P 3) (packetWord P 7))
  | release : CommandRow p P .release
  | setpoint : CommandRow p P (.setpoint (packetWord P 1) (packetWord P 2) (packetWord P 7))
  | getpoint : CommandRow p P (.getpoint (packetWord P 1) (packetWord P 2))
  | line : CommandRow p P
      (.line (packetWord P 1) (packetWord P 2) (packetWord P 3) (packetWord P 4) (packetWord P 7))
  | tri : CommandRow p P
      (.tri (packetWord P 1) (packetWord P 2) (packetWord P 3) (packetWord P 4) (packetWord P 5) (packetWord P 6)
        (packetWord P 7))
  | filln (hf : p.hasFilln = true) : CommandRow p P (.filln (packetWord P 1) (packetWord P 2) (packetWord P 7))

/-- Ground (a) of R74: the opcode selects no command. -/
def NoCommand (p : Params) (op : BitVec 8) : Prop :=
  op = 0x00 ∨ 0x08 ≤ op.toNat ∨ (op = 0x07 ∧ p.hasFilln = false)

theorem CommandRow.wellFormed {p : Params} {P : Packet} {i : Instr} (row : CommandRow p P i) : i.wellFormed p = true := by
  cases row with
  | filln hf => exact hf
  | _ => rfl

theorem CommandRow.not_noCommand {p : Params} {P : Packet} {i : Instr} (row : CommandRow p P i) :
    ¬ NoCommand p (opcodeOf i) := by
  cases row with
  | filln hf => simp [NoCommand, opcodeOf, hf]
  | _ => simp [NoCommand, opcodeOf]

/-- Every opcode is that of a row or selects no command. -/
theorem exists_commandRow_or_noCommand (p : Params) (P : Packet) (op : BitVec 8) :
    (∃ i, CommandRow p P i ∧ op = opcodeOf i) ∨ NoCommand p op := by
  by_cases hop : 0x08 ≤ op.toNat
  · exact .inr (.inr (.inl hop))
  obtain ⟨n, rfl⟩ : ∃ n : Fin 8, op = BitVec.ofNat 8 n := ⟨⟨op.toNat, by omega⟩, by simp⟩
  fin_cases n
  · exact .inr (.inl rfl)
  · exact .inl ⟨_, .create, rfl⟩
  · exact .inl ⟨_, .release, rfl⟩
  · exact .inl ⟨_, .setpoint, rfl⟩
  · exact .inl ⟨_, .getpoint, rfl⟩
  · exact .inl ⟨_, .line, rfl⟩
  · exact .inl ⟨_, .tri, rfl⟩
  · cases hf : p.hasFilln
    · exact .inr (.inr (.inr ⟨rfl, hf⟩))
    · exact .inl ⟨_, .filln hf, rfl⟩

/-! ### The decoder, row by row -/

theorem wordsAreZero_iff {P : Packet} {ks : List Nat} : wordsAreZero P ks = true ↔ ∀ k ∈ ks, packetWord P k = 0 := by
  induction ks with
  | nil => simp [wordsAreZero]
  | cons k ks ih => simp [wordsAreZero, ih]

theorem decodeWith_eq_ok_iff {P : Packet} {dashes : List Nat} {i j : Instr} :
    decodeWith P dashes i = .ok j ↔ i = j ∧ wordsAreZero P dashes = true := by
  unfold decodeWith
  split <;> simp [*]

theorem decode_of_rsv0_ne_zero {p : Params} {P : Packet} (hr : packetRsv0 P ≠ 0) :
    decode p P = .error .reservedField :=
  if_pos hr

theorem decode_of_commandRow {p : Params} {P : Packet} {i : Instr} (hr : packetRsv0 P = 0)
    (row : CommandRow p P i) (ho : packetOpcode P = opcodeOf i) : decode p P = decodeWith P (dashesOf i) i := by
  cases row with
  | filln hf => simp [decode, hr, ho, hf, opcodeOf, dashesOf]
  | _ => simp [decode, hr, ho, opcodeOf, dashesOf]

theorem decode_of_noCommand {p : Params} {P : Packet} (hr : packetRsv0 P = 0) (hn : NoCommand p (packetOpcode P)) :
    decode p P = .error .illegalOpcode := by
  have opcode_ne {i : Instr} (row : CommandRow p P i) : packetOpcode P ≠ opcodeOf i :=
    fun ho => row.not_noCommand (ho ▸ hn)
  have no_filln : ¬ (packetOpcode P = 0x07 ∧ p.hasFilln = true) := fun ⟨ho, hf⟩ => opcode_ne (.filln hf) ho
  exact (if_neg (not_not.mpr hr)).trans <| (if_neg (opcode_ne .create)).trans <| (if_neg (opcode_ne .release)).trans <|
    (if_neg (opcode_ne .setpoint)).trans <| (if_neg (opcode_ne .getpoint)).trans <| (if_neg (opcode_ne .line)).trans <|
    (if_neg (opcode_ne .tri)).trans <| if_neg no_filln

/-- A packet decodes to the command of its row, and only when no reserved bit is set. -/
theorem decode_eq_ok_iff {p : Params} {P : Packet} {i : Instr} :
    decode p P = .ok i ↔
      CommandRow p P i ∧ packetRsv0 P = 0 ∧ packetOpcode P = opcodeOf i ∧ wordsAreZero P (dashesOf i) = true := by
  constructor
  · intro h
    have hr : packetRsv0 P = 0 := by
      by_contra hr
      simp [decode_of_rsv0_ne_zero hr] at h
    obtain ⟨j, row, ho⟩ | hn := exists_commandRow_or_noCommand p P (packetOpcode P)
    · rw [decode_of_commandRow hr row ho] at h
      obtain ⟨rfl, hz⟩ := decodeWith_eq_ok_iff.mp h
      exact ⟨row, hr, ho, hz⟩
    · simp [decode_of_noCommand hr hn] at h
  · rintro ⟨row, hr, ho, hz⟩
    rw [decode_of_commandRow hr row ho]
    exact decodeWith_eq_ok_iff.mpr ⟨rfl, hz⟩

theorem decode_ne_ok_of_noCommand {p : Params} {P : Packet} (hn : NoCommand p (packetOpcode P)) (i : Instr) :
    decode p P ≠ .ok i := by
  intro h
  obtain ⟨row, -, ho, -⟩ := decode_eq_ok_iff.mp h
  exact row.not_noCommand (ho ▸ hn)

/-! ### Match and mask -/

/-- Word `k` of the mask of a row: all of word 0 and of the words the row marks with a dash (R72). -/
def maskWord (dashes : List Nat) (k : Nat) : Word32 := if k ∈ 0 :: dashes then 0xFFFFFFFF else 0

/-- The mask of a row (R72). -/
def selectMask (dashes : List Nat) : Packet :=
  let m := maskWord dashes
  packetOf (m 0) (m 1) (m 2) (m 3) (m 4) (m 5) (m 6) (m 7)

/-- The match of a row: the opcode, every other bit zero (R72). -/
def selectMatch (op : BitVec 8) : Packet := packetOf ((0 : BitVec 24) ++ op) 0 0 0 0 0 0 0

theorem packetWord_selectMask (dashes : List Nat) {k : Nat} (hk : k < 8) :
    packetWord (selectMask dashes) k = maskWord dashes k := by
  unfold selectMask
  interval_cases k <;> simp only [packetWord_packetOf_0, packetWord_packetOf_1, packetWord_packetOf_2,
    packetWord_packetOf_3, packetWord_packetOf_4, packetWord_packetOf_5, packetWord_packetOf_6, packetWord_packetOf_7]

theorem packetWord_selectMatch_zero (op : BitVec 8) : packetWord (selectMatch op) 0 = (0 : BitVec 24) ++ op :=
  packetWord_packetOf_0 ..

theorem packetWord_selectMatch_of_pos (op : BitVec 8) {k : Nat} (hk : k < 8) (h0 : 0 < k) :
    packetWord (selectMatch op) k = 0 := by
  unfold selectMatch
  interval_cases k <;> simp

theorem packetWord_and (P Q : Packet) (k : Nat) : packetWord (P &&& Q) k = packetWord P k &&& packetWord Q k :=
  BitVec.extractLsb'_and ..

theorem and_maskWord_of_mem (w : Word32) {dashes : List Nat} {k : Nat} (hm : k ∈ 0 :: dashes) :
    w &&& maskWord dashes k = w := by
  rw [maskWord, if_pos hm]
  exact BitVec.and_allOnes

theorem and_maskWord_of_notMem (w : Word32) {dashes : List Nat} {k : Nat} (hm : k ∉ 0 :: dashes) :
    w &&& maskWord dashes k = 0 := by
  rw [maskWord, if_neg hm]
  exact BitVec.and_zero

theorem packetWord_zero_eq_iff {P : Packet} {op : BitVec 8} :
    packetWord P 0 = (0 : BitVec 24) ++ op ↔ packetRsv0 P = 0 ∧ packetOpcode P = op := by
  rw [packetWord_0]
  refine ⟨fun h => ⟨?_, ?_⟩, fun ⟨hr, ho⟩ => by rw [hr, ho]⟩
  · have e := congrArg (BitVec.extractLsb' 8 24) h
    rwa [extract_append_high _ _ (by omega), extract_append_high _ _ (by omega), extract_whole, extract_whole] at e
  · have e := congrArg (BitVec.extractLsb' 0 8) h
    rwa [extract_append_low _ _ (by omega), extract_append_low _ _ (by omega), extract_whole, extract_whole] at e

/-- Word by word: the mask keeps word 0 and the dashes, and the match is zero outside word 0. -/
theorem and_selectMask_eq_selectMatch_iff {P : Packet} {dashes : List Nat} {op : BitVec 8}
    (hd : ∀ k ∈ dashes, k < 8 ∧ 0 < k) :
    P &&& selectMask dashes = selectMatch op ↔
      packetRsv0 P = 0 ∧ packetOpcode P = op ∧ wordsAreZero P dashes = true := by
  have word_and {k : Nat} (hk : k < 8) :
      packetWord (P &&& selectMask dashes) k = packetWord P k &&& maskWord dashes k := by
    rw [packetWord_and, packetWord_selectMask dashes hk]
  rw [← and_assoc, ← packetWord_zero_eq_iff, ← packetWord_selectMatch_zero, wordsAreZero_iff]
  constructor
  · intro h
    have word_eq {k : Nat} (hk : k < 8) (hm : k ∈ 0 :: dashes) : packetWord P k = packetWord (selectMatch op) k := by
      rw [← h, word_and hk, and_maskWord_of_mem _ hm]
    refine ⟨word_eq (by omega) List.mem_cons_self, fun k hk => ?_⟩
    obtain ⟨hk8, hk0⟩ := hd k hk
    rw [word_eq hk8 (List.mem_cons_of_mem _ hk), packetWord_selectMatch_of_pos op hk8 hk0]
  · rintro ⟨h0, hz⟩
    refine packet_ext fun k hk => ?_
    rw [word_and hk]
    by_cases hm : k ∈ 0 :: dashes
    · rw [and_maskWord_of_mem _ hm]
      obtain rfl | hkd := List.mem_cons.mp hm
      · exact h0
      · rw [hz k hkd, packetWord_selectMatch_of_pos op hk (hd k hkd).2]
    · have hk0 : 0 < k := Nat.pos_of_ne_zero fun h => hm (h ▸ List.mem_cons_self)
      rw [and_maskWord_of_notMem _ hm, packetWord_selectMatch_of_pos op hk hk0]

theorem dashesOf_mem {i : Instr} : ∀ k ∈ dashesOf i, k < 8 ∧ 0 < k := by
  cases i <;> simp [dashesOf]

/-- R72: the command of a row is selected exactly by the packets that its mask takes to its match. -/
theorem decode_eq_ok_iff_mask {p : Params} {P : Packet} {i : Instr} :
    decode p P = .ok i ↔ CommandRow p P i ∧ P &&& selectMask (dashesOf i) = selectMatch (opcodeOf i) := by
  rw [decode_eq_ok_iff, and_selectMask_eq_selectMatch_iff dashesOf_mem]

/-- Settles O3: the masks and matches written out there are those of the rows of R71. -/
theorem packetSelectsACommandByMatchAndMask : Obligations.PacketSelectsACommandByMatchAndMask := by
  intro p P
  simp only [decode_eq_ok_iff_mask, dashesOf, opcodeOf]
  exact
    ⟨⟨fun ⟨_, _, _, _, _, h⟩ => h, fun h => ⟨_, _, _, _, .create, h⟩⟩,
      ⟨fun ⟨_, h⟩ => h, fun h => ⟨.release, h⟩⟩,
      ⟨fun ⟨_, _, _, _, h⟩ => h, fun h => ⟨_, _, _, .setpoint, h⟩⟩,
      ⟨fun ⟨_, _, _, h⟩ => h, fun h => ⟨_, _, .getpoint, h⟩⟩,
      ⟨fun ⟨_, _, _, _, _, _, h⟩ => h, fun h => ⟨_, _, _, _, _, .line, h⟩⟩,
      ⟨fun ⟨_, _, _, _, _, _, _, _, h⟩ => h, fun h => ⟨_, _, _, _, _, _, _, .tri, h⟩⟩,
      ⟨fun ⟨_, _, _, row, h⟩ => ⟨row.wellFormed, h⟩, fun ⟨hf, h⟩ => ⟨_, _, _, .filln hf, h⟩⟩,
      decode_ne_ok_of_noCommand⟩

/-! ### Illegal packets -/

/-- R74 for a packet whose opcode has a row: grounds (b) and (c) alone are left. -/
theorem illegalPacket_iff_of_commandRow {p : Params} {P : Packet} {i : Instr} (row : CommandRow p P i)
    (ho : packetOpcode P = opcodeOf i) :
    IllegalPacket p P ↔ packetRsv0 P ≠ 0 ∨ wordsAreZero P (dashesOf i) = false := by
  cases row with
  | filln hf => simp [IllegalPacket, wordsAreZero, ho, hf, opcodeOf, dashesOf, imp_iff_not_or]
  | _ => simp [IllegalPacket, wordsAreZero, ho, opcodeOf, dashesOf, imp_iff_not_or]

theorem not_illegalPacket_iff {p : Params} {P : Packet} : ¬ IllegalPacket p P ↔ ∃ i, decode p P = .ok i := by
  obtain ⟨i, row, ho⟩ | hn := exists_commandRow_or_noCommand p P (packetOpcode P)
  · rw [illegalPacket_iff_of_commandRow row ho]
    constructor
    · intro h
      obtain ⟨hr, hz⟩ := not_or.mp h
      exact ⟨i, decode_eq_ok_iff.mpr ⟨row, not_not.mp hr, ho, Bool.eq_true_of_not_eq_false hz⟩⟩
    · rintro ⟨j, h⟩
      obtain ⟨-, hr, -, -⟩ := decode_eq_ok_iff.mp h
      rw [decode_of_commandRow hr row ho] at h
      simp [hr, (decodeWith_eq_ok_iff.mp h).2]
  · exact ⟨fun h => (h (.inl hn)).elim, fun ⟨i, h⟩ => (decode_ne_ok_of_noCommand hn i h).elim⟩

namespace Machine

/-- R74 with R176: an illegal packet is accepted and answered, whatever the lifecycle state. -/
theorem step_of_illegalPacket {s : State} {P : Packet} (ha : s.accepts = some P) (hi : IllegalPacket s.cfg P) :
    step s = .next (raisePlain .illegalCommand (accept P s)) := by
  obtain ⟨-, hh, -⟩ := accepts_some.mp ha
  have answered : illegalCommand (accept P s) = .next (raisePlain .illegalCommand (accept P s)) :=
    illegalCommand_next.mpr ⟨hh, rfl⟩
  unfold step
  rw [ha]
  cases hd : decode s.cfg P with
  | ok i => exact absurd hi (not_illegalPacket_iff.mpr ⟨i, hd⟩)
  | error e => simpa [hd] using answered

theorem answers_raisePlain (f : Status) (s : State) : Answers (raisePlain f s) f 0 0 0 where
  offered := rfl
  status := by simp
  data := by simp
  frow := by simp [low32]
  fcol := by simp [low32]

end Machine

open Machine

/-- Settles O5: accepting the packet and raising IllegalCommand are the only updates of the step. -/
theorem illegalPacketChangesNothing : Obligations.IllegalPacketChangesNothing := by
  refine ⟨fun s P ha hi => ?_, fun p P => not_illegalPacket_iff.mp, fun p => .inl (.inl (by decide))⟩
  exact ⟨_, step_of_illegalPacket ha hi, answers_raisePlain _ _, ⟨rfl, rfl, rfl, rfl, rfl, rfl⟩, rfl, rfl, rfl, rfl, rfl,
    rfl, rfl, rfl⟩

end Sys2Proof

/-! The index decoder, the lane datapath and the two pixel primitives (40_index_lane.md R92, R96 to R100): the settled
obligations about them. -/

namespace Sys2Proof

namespace Machine

/-! ### Lanes of a word -/

theorem laneMask_getLsbD (b : Nat) {n : Nat} (hn : n < 64) :
    (laneMask b).getLsbD n = decide (b ≤ n ∧ n < b + 8) := by
  have ones : (0xFF : Word64).getLsbD (n - b) = decide (n - b < 8) := by
    rw [show (0xFF : Word64) = (BitVec.allOnes 8).setWidth 64 from rfl, BitVec.getLsbD_setWidth, BitVec.getLsbD_allOnes]
    simp; omega
  rw [laneMask, BitVec.getLsbD_shiftLeft, ones, Bool.eq_iff_iff]
  simp [hn]; omega

/-- LaneInsert takes the 8 bits of the lane from the value and every other bit from the word (R95). -/
theorem laneInsert_getLsbD (w : Word64) (b : Nat) (v : Word32) {n : Nat} (hn : n < 64) :
    (laneInsert w b v).getLsbD n = if b ≤ n ∧ n < b + 8 then (lowByte v).getLsbD (n - b) else w.getLsbD n := by
  simp only [laneInsert, BitVec.getLsbD_or, BitVec.getLsbD_and, BitVec.getLsbD_not, laneMask_getLsbD b hn,
    BitVec.getLsbD_shiftLeft, BitVec.getLsbD_setWidth]
  by_cases hlane : b ≤ n ∧ n < b + 8
  · have hb : ¬ n < b := by omega
    have hoff : n - b < 64 := by omega
    simp [hlane, hn, hb, hoff]
  · by_cases hb : n < b
    · simp [hlane, hn, hb]
    · have beyond : (lowByte v).getLsbD (n - b) = false := BitVec.getLsbD_of_ge _ _ (by omega)
      simp [hlane, hn, beyond]

/-- Lane `k'` of the mask of lane `k` is all ones when they are the same lane, and zero otherwise (R93). -/
theorem laneExtract_laneMask {k k' : Nat} (hk' : k' < 8) :
    laneExtract (laneMask (8 * k)) (8 * k') = if k = k' then 0xFF else 0x00 := by
  apply BitVec.eq_of_getLsbD_eq
  intro j hj
  rw [laneExtract_getLsbD _ _ _ hj, laneMask_getLsbD _ (by omega)]
  by_cases h : k = k'
  · subst h
    rw [if_pos rfl, show (0xFF : Byte) = BitVec.allOnes 8 from rfl, BitVec.getLsbD_allOnes]
    simp
  · rw [if_neg h, BitVec.ofNat_eq_ofNat, BitVec.getLsbD_zero, decide_eq_false_iff_not]
    omega

/-- Inserting in lane `k` gives that lane the low byte of the value and leaves every other lane (R100 (a), (b)). -/
theorem laneExtract_laneInsert (w : Word64) (v : Word32) {k k' : Nat} (hk' : k' < 8) :
    laneExtract (laneInsert w (8 * k) v) (8 * k') = if k' = k then lowByte v else laneExtract w (8 * k') := by
  apply BitVec.eq_of_getLsbD_eq
  intro j hj
  rw [laneExtract_getLsbD _ _ _ hj, laneInsert_getLsbD _ _ _ (by omega)]
  by_cases h : k' = k
  · rw [if_pos h, if_pos (by omega), h, Nat.add_sub_cancel_left]
  · rw [if_neg h, if_neg (by omega), laneExtract_getLsbD _ _ _ hj]

theorem laneInsert_laneInsert (w : Word64) (k : Nat) (v1 v2 : Word32) :
    laneInsert (laneInsert w (8 * k) v1) (8 * k) v2 = laneInsert w (8 * k) v2 := by
  apply word_ext
  intro j hj
  simp only [laneExtract_laneInsert _ _ hj]
  split <;> rfl

theorem lowByte_toNat (v : Word32) : (lowByte v).toNat = v.toNat % 256 := by
  simp [lowByte]

/-! ### Lanes of a written word -/

theorem lane_foldl_writeLane (i j k : Nat) (w : Word64) (hk : k < 8) (ks : List Nat) (hks : ∀ l ∈ ks, l < 8) (m : Memory) :
    (ks.foldl (fun m l => m.writeLane i l (laneExtract w (8 * l))) m).lane j k =
      if j = i ∧ k ∈ ks then laneExtract w (8 * k) else m.lane j k := by
  induction ks generalizing m with
  | nil => simp
  | cons l ks ih =>
    obtain ⟨hl, hks⟩ := List.forall_mem_cons.mp hks
    rw [List.foldl_cons, ih hks, lane_writeLane _ _ _ _ _ _ hl hk]
    by_cases hkl : k = l
    · subst hkl
      by_cases hj : j = i <;> simp [hj]
    · simp [hkl]

/-- Writing a word gives its lanes those of the word written and leaves every lane of the other words (R50, R51). -/
theorem lane_writeWord (m : Memory) (i j k : Nat) (w : Word64) (hk : k < 8) :
    (m.writeWord i w).lane j k = if j = i then laneExtract w (8 * k) else m.lane j k := by
  rw [Memory.writeWord, lane_foldl_writeLane i j k w hk _ (fun _ => List.mem_range.mp)]
  simp [hk]

/-- Writing a lane reads as the read, LaneInsert and write of its word (R96, log 5). -/
theorem readWord_writeLane (m : Memory) (i k j : Nat) (v : Word32) (hk : k < 8) :
    (m.writeLane i k (lowByte v)).readWord j = (m.writeWord i (laneInsert (m.readWord i) (8 * k) v)).readWord j := by
  apply readWord_congr
  intro l hl
  rw [lane_writeLane _ _ _ _ _ _ hk hl, lane_writeWord _ _ _ _ _ hl]
  by_cases hj : j = i
  · simp [hj, laneExtract_laneInsert _ _ hl, laneExtract_readWord _ _ _ hl]
  · simp [hj]

/-! ### The index -/

theorem index_bit (width row col : Nat) : (index width row col).bit = 8 * (col % 8) := rfl

theorem index_word (width row col : Nat) : (index width row col).word = row * strideOf width + col / 8 := rfl

/-- The 29 upper bits of a 32-bit word are its quotient by 8. -/
theorem toNat_extract_high29 (x : Word32) : (x.extractLsb' 3 29).toNat = x.toNat / 8 := by
  have := x.isLt
  rw [BitVec.extractLsb'_toNat, Nat.shiftRight_eq_div_pow]
  omega

/-- The 3 lower bits of a 32-bit word are its remainder by 8. -/
theorem toNat_extract_low3 (x : Word32) : (x.extractLsb' 0 3).toNat = x.toNat % 8 := by
  rw [BitVec.extractLsb'_toNat]
  rfl

theorem col_div_lt_strideOf {col width : Nat} (h : col < width) : col / 8 < strideOf width := by
  unfold strideOf; omega

/-- A stride has 30 bits, so the index of 32-bit operands has 61 (R92). -/
theorem index_word_lt {width row col : Nat} (hw : width < 2 ^ 32) (hr : row < 2 ^ 32) (hc : col < 2 ^ 32) :
    (index width row col).word < 2 ^ 61 := by
  have hstride : strideOf width ≤ 2 ^ 29 := by unfold strideOf; omega
  have hmul : row * strideOf width ≤ (2 ^ 32 - 1) * 2 ^ 29 := Nat.mul_le_mul (by omega) hstride
  rw [index_word]
  omega

/-- The index is a two-digit number in radix STRIDE with `col mod 8` as the lane, so it determines the pixel (R99). -/
theorem index_inj {width row col row' col' : Nat} (hc : col < width) (hc' : col' < width) :
    index width row col = index width row' col' ↔ row = row' ∧ col = col' := by
  refine ⟨fun h => ?_, fun ⟨hr, hc⟩ => by rw [hr, hc]⟩
  have hword : row * strideOf width + col / 8 = row' * strideOf width + col' / 8 := congrArg LaneAddr.word h
  have hbit : 8 * (col % 8) = 8 * (col' % 8) := congrArg LaneAddr.bit h
  have digits (r : Nat) {c : Nat} (hc : c < width) :
      (r * strideOf width + c / 8) / strideOf width = r ∧ (r * strideOf width + c / 8) % strideOf width = c / 8 :=
    have hlt := col_div_lt_strideOf hc
    (Nat.div_mod_unique (Nat.zero_lt_of_lt hlt)).mpr ⟨by ring, hlt⟩
  obtain ⟨hrow, hquot⟩ := digits row hc
  obtain ⟨hrow', hquot'⟩ := digits row' hc'
  rw [hword] at hrow hquot
  exact ⟨hrow.symm.trans hrow', by have := hquot.symm.trans hquot'; omega⟩

/-! ### The pixels of an image -/

/-- A pixel in bounds is a pair of naturals below the dimensions (R90). -/
theorem exists_nat_of_inBounds {s : State} {r c : Int} (h : inBounds s r c = true) :
    ∃ row col : Nat, r = row ∧ c = col ∧ row < s.height.toNat ∧ col < s.width.toNat := by
  obtain ⟨hr0, hr, hc0, hc⟩ := (inBounds_iff s r c).mp h
  exact ⟨r.toNat, c.toNat, by omega, by omega, by omega, by omega⟩

theorem pixelAddr_natCast (s : State) (row col : Nat) : pixelAddr s row col = index s.width.toNat row col := rfl

theorem pixelAddr_inj {s : State} {r c r' c' : Int} (h : inBounds s r c = true) (h' : inBounds s r' c' = true) :
    pixelAddr s r c = pixelAddr s r' c' ↔ r = r' ∧ c = c' := by
  obtain ⟨row, col, rfl, rfl, -, hc⟩ := exists_nat_of_inBounds h
  obtain ⟨row', col', rfl, rfl, -, hc'⟩ := exists_nat_of_inBounds h'
  simp only [pixelAddr_natCast, index_inj hc hc', Nat.cast_inj]

/-- An image with a pixel is live and has a buffer: without an image both dimensions are 0 (R29 (a)). -/
theorem alloc_of_inBounds {s : State} {r c : Int} (hi : Inv s) (h : inBounds s r c = true) : s.alloc = true := by
  obtain ⟨row, col, -, -, hr, hc⟩ := exists_nat_of_inBounds h
  have hlive : s.live = true := by
    by_contra hl
    obtain ⟨hw, -⟩ := hi.noImage (Bool.eq_false_of_not_eq_true hl)
    simp [hw] at hc
  have harea : 0 < s.width.toNat * s.height.toNat := Nat.mul_pos (by omega) (by omega)
  simp [State.alloc, hlive, harea]

theorem size_of_alloc {s : State} (h : s.alloc = true) : s.size = s.height.toNat * strideOf s.width.toNat := if_pos h

/-- The rows of an image are `STRIDE` words each, and the pixels of a row lie in its words (R98). -/
theorem pixelAddr_word_lt {s : State} {r c : Int} (h : inBounds s r c = true) :
    (pixelAddr s r c).word < s.height.toNat * strideOf s.width.toNat := by
  obtain ⟨row, col, rfl, rfl, hr, hc⟩ := exists_nat_of_inBounds h
  calc row * strideOf s.width.toNat + col / 8
      < row * strideOf s.width.toNat + strideOf s.width.toNat := Nat.add_lt_add_left (col_div_lt_strideOf hc) _
    _ = (row + 1) * strideOf s.width.toNat := (Nat.succ_mul ..).symm
    _ ≤ s.height.toNat * strideOf s.width.toNat := Nat.mul_le_mul_right _ hr

theorem pixelAddr_word_lt_bound {s : State} {r c : Int} (h : inBounds s r c = true) : (pixelAddr s r c).word < 2 ^ 61 := by
  obtain ⟨row, col, rfl, rfl, hr, hc⟩ := exists_nat_of_inBounds h
  exact index_word_lt s.width.isLt (hr.trans s.height.isLt) (hc.trans s.width.isLt)

/-! ### The pixel primitives -/

theorem pixelAddr_lane_lt (s : State) (r c : Int) : (pixelAddr s r c).bit / 8 < 8 := by
  rw [pixelAddr_lane]; omega

theorem pixelAddr_bit_eq_mul_lane (s : State) (r c : Int) : (pixelAddr s r c).bit = 8 * ((pixelAddr s r c).bit / 8) := by
  rw [pixelAddr_lane, pixelAddr_bit]

theorem laneAddr_eq_iff {a b : LaneAddr} : a = b ↔ a.word = b.word ∧ a.bit = b.bit := by
  cases a; cases b; simp

/-- Pixels have the same address when they have the same word and lane. -/
theorem pixelAddr_eq_iff_lane (s : State) (r c r' c' : Int) :
    pixelAddr s r' c' = pixelAddr s r c ↔
      (pixelAddr s r' c').word = (pixelAddr s r c).word ∧ (pixelAddr s r' c').bit / 8 = (pixelAddr s r c).bit / 8 := by
  rw [laneAddr_eq_iff, pixelAddr_bit_eq_mul_lane s r c, pixelAddr_bit_eq_mul_lane s r' c']
  omega

theorem getPoint_inBounds {s : State} {r c : Int} (h : inBounds s r c = true) :
    getPoint r c s = some (s.mem.lane (pixelAddr s r c).word ((pixelAddr s r c).bit / 8)) := by
  simp [getPoint, h]

theorem getPoint_outside {s : State} {r c : Int} (h : inBounds s r c = false) : getPoint r c s = none := by
  simp [getPoint, h]

theorem setPoint_eq_going_iff {s t : State} {r c : Int} {v : Word32} :
    setPoint r c v s = .going t ↔ inBounds s r c = true ∧
      t = s.withMem (s.mem.writeLane (pixelAddr s r c).word ((pixelAddr s r c).bit / 8) (lowByte v)) := by
  cases h : inBounds s r c
  · simp [setPoint_outside v h]
  · simp [setPoint_inBounds v h, eq_comm]

/-- After a SetPoint that succeeds, an in-bounds pixel reads as the low byte of the value if it is the pixel set, and as before
otherwise (R100 (d)). -/
theorem getPoint_of_setPoint {s t : State} {r c r' c' : Int} {v : Word32} (ht : setPoint r c v s = .going t)
    (h' : inBounds s r' c' = true) :
    getPoint r' c' t = if r' = r ∧ c' = c then some (lowByte v) else getPoint r' c' s := by
  obtain ⟨h, rfl⟩ := setPoint_eq_going_iff.mp ht
  rw [getPoint_inBounds (by simpa using h'), getPoint_inBounds h', withMem_pixelAddr, withMem_mem,
    lane_writeLane _ _ _ _ _ _ (pixelAddr_lane_lt ..) (pixelAddr_lane_lt ..)]
  simp only [← pixelAddr_eq_iff_lane, pixelAddr_inj h' h, apply_ite some]

end Machine

open Machine

/-! ### The obligations -/

/-- Settles O8: a slice of a 32-bit word is its quotient or its remainder by 8. -/
theorem indexHasItsHardwareForm : Obligations.IndexHasItsHardwareForm := by
  intro width row col a
  have hbit : a.bit = 8 * (col.toNat % 8) := index_bit ..
  rw [toNat_extract_high29, toNat_extract_high29, toNat_extract_low3, hbit]
  refine ⟨rfl, index_word .., ?_, index_word_lt width.isLt row.isLt col.isLt, fun k hk => laneExtract_laneMask hk⟩
  rw [BitVec.toNat_append, toNat_extract_low3, ← Nat.shiftLeft_add_eq_or_of_lt (by decide), Nat.shiftLeft_eq]
  simp [Nat.mul_comm]

/-- Settles O9, from the invariant that the buffer of a live image fits BUF. -/
theorem indexStaysInsideTheBuffer : Obligations.IndexStaysInsideTheBuffer := by
  intro s row col hi h
  have ha := alloc_of_inBounds hi h
  obtain ⟨-, hfits⟩ := hi.fits ha
  exact ⟨ha, (pixelAddr_word_lt h).trans_eq (size_of_alloc ha).symm, hfits, pixelAddr_word_lt_bound h⟩

/-- Settles O10: two pixels in one word have different bit offsets, and a bit offset is a multiple of 8. -/
theorem indexIsInjectiveOnThePixels : Obligations.IndexIsInjectiveOnThePixels := by
  intro s r c r' c' h h'
  refine ⟨pixelAddr_inj h h', fun hne => ?_⟩
  have haddr : ¬ ((pixelAddr s r c).word = (pixelAddr s r' c').word ∧
      (pixelAddr s r c).bit / 8 = (pixelAddr s r' c').bit / 8) := by
    rwa [← pixelAddr_eq_iff_lane, pixelAddr_inj h h']
  have hbit := pixelAddr_bit_eq_mul_lane s r c
  have hbit' := pixelAddr_bit_eq_mul_lane s r' c'
  omega

/-- Settles O11: the laws of one word are read off its lanes, those of the image off its pixels. -/
theorem lanesArePackedIndependently : Obligations.LanesArePackedIndependently := by
  refine ⟨fun w k v hk => ?_, fun w k k' v _ hk' hne => ?_, fun w k v1 v2 _ => laneInsert_laneInsert w k v1 v2,
    fun s t r c v ht => ⟨⟨lowByte v, ?_, lowByte_toNat v⟩, fun r' c' h' hne => ?_⟩⟩
  · rw [laneExtract_laneInsert _ _ hk, if_pos rfl, lowByte_toNat]
  · rw [laneExtract_laneInsert _ _ hk', if_neg hne]
  · rw [getPoint_of_setPoint ht (setPoint_eq_going_iff.mp ht).1, if_pos ⟨rfl, rfl⟩]
  · rw [getPoint_of_setPoint ht h', if_neg hne]

/-- Settles O12: the one lane written is the one that LaneInsert changes in the word. -/
theorem setPointReadsInsertsAndWritesTheWord : Obligations.SetPointReadsInsertsAndWritesTheWord := by
  refine fun s row col value => ⟨fun h => ⟨_, setPoint_inBounds value h, fun j => ?_, ?_⟩, setPoint_outside value⟩
  · rw [withMem_mem, readWord_writeLane _ _ _ _ _ (pixelAddr_lane_lt ..), ← pixelAddr_bit_eq_mul_lane]
  · exact ⟨⟨rfl, rfl, rfl, rfl, rfl, rfl⟩, ⟨rfl, rfl, rfl, rfl, rfl, rfl⟩, rfl, rfl, rfl⟩

/-- Settles O13: the lane GetPoint reads is the one LaneExtract takes from the word. -/
theorem getPointExtractsTheLaneOfTheWord : Obligations.GetPointExtractsTheLaneOfTheWord := by
  intro s row col
  simp only [← inBounds_iff]
  cases h : inBounds s row col
  · rw [getPoint_outside h, if_neg Bool.false_ne_true]
  · rw [getPoint_inBounds h, if_pos rfl, pixelAddr_lane, laneExtract_readWord _ _ _ (Nat.mod_lt _ (by decide))]
    rfl

end Sys2Proof

/-! The pixel-store commands (41_pixel_commands.md R115): the settled obligation about them. -/

namespace Sys2Proof

namespace Machine

theorem lowByte_eq_iff {v1 v2 : Word32} : lowByte v1 = lowByte v2 ↔ v1.toNat % 256 = v2.toNat % 256 := by
  rw [← BitVec.toNat_inj, lowByte_toNat, lowByte_toNat]

theorem setPoint_congr_lowByte {v1 v2 : Word32} (hv : lowByte v1 = lowByte v2) (r c : Int) (s : State) :
    setPoint r c v1 s = setPoint r c v2 s := by
  cases h : inBounds s r c
  · rw [setPoint_outside v1 h, setPoint_outside v2 h]
  · rw [setPoint_inBounds v1 h, setPoint_inBounds v2 h, hv]

theorem setpointBody_congr_lowByte {v1 v2 : Word32} (hv : lowByte v1 = lowByte v2) (r c : Word32) :
    setpointBody r c v1 = setpointBody r c v2 :=
  funext fun s => congrArg Run.finish (setPoint_congr_lowByte hv (uint32 r) (uint32 c) s)

end Machine

open Machine

/-- Settles O23: the value enters SETPOINT's own rule only as the low byte that SetPoint stores, and the prologue does not see
it. -/
theorem setpointUsesTheValueModulo256 : Obligations.SetpointUsesTheValueModulo256 := by
  intro s r c v1 v2 hv
  exact congrArg (command .image · s) (setpointBody_congr_lowByte (lowByte_eq_iff.mpr hv) r c)

end Sys2Proof

/-! The rasterizer's lines and the sort of a triangle's vertices (42_rasterizer.md R131, R134 to R137, R139): the settled
obligations about them. -/

namespace Sys2Proof

namespace Machine

/-! ### The sign of the slope -/

theorem sgn_eq_sign (a : Int) : sgn a = a.sign := by
  obtain h | rfl | h := lt_trichotomy a 0
  · rw [sgn, if_neg (by omega), if_pos h, Int.sign_eq_neg_one_of_neg h]
  · rfl
  · rw [sgn, if_pos h, Int.sign_eq_one_of_pos h]

theorem sgn_mul_natAbs (a : Int) : sgn a * a.natAbs = a := by rw [sgn_eq_sign, Int.sign_mul_natAbs]

theorem natAbs_eq_zero_of_sgn {a : Int} (h : sgn a = 0) : a.natAbs = 0 := by
  rwa [sgn_eq_sign, Int.sign_eq_zero_iff_zero, ← Int.natAbs_eq_zero] at h

/-- Going from `a` towards `b` by at most their distance stays between them. -/
theorem add_sgn_mul_mem_Icc (a b : Int) {s : Int} (h0 : 0 ≤ s) (hs : s ≤ (b - a).natAbs) :
    min a b ≤ a + sgn (b - a) * s ∧ a + sgn (b - a) * s ≤ max a b := by
  rw [sgn_eq_sign]
  obtain h | h | h := lt_trichotomy (b - a) 0
  · rw [Int.sign_eq_neg_one_of_neg h]; omega
  · rw [h, Int.sign_zero]; omega
  · rw [Int.sign_eq_one_of_pos h]; omega

/-! ### The minor offset (R135) -/

/-- The offset is the one number of minor steps that leaves the accumulator in its range (R134 (d)). -/
theorem eq_minorOffset {dx d k s : Int} (hdx : 0 < dx) (hlo : -dx < 2 * d * k - 2 * (dx * s))
    (hhi : 2 * d * k - 2 * (dx * s) ≤ dx) : s = minorOffset dx d k := by
  rw [minorOffset, if_neg hdx.ne']
  refine le_antisymm ((Int.le_ediv_iff_mul_le (by omega)).mpr ?_)
    (Int.le_of_lt_add_one ((Int.ediv_lt_iff_lt_mul (by omega)).mpr ?_))
  · linarith
  · linarith

theorem minorOffset_of_dx_eq_zero (d k : Int) : minorOffset 0 d k = 0 := if_pos rfl

theorem minorOffset_of_mul_eq_zero {dx d k : Int} (hdx : 0 ≤ dx) (h : d * k = 0) : minorOffset dx d k = 0 := by
  obtain rfl | hpos := hdx.eq_or_lt
  · exact minorOffset_of_dx_eq_zero d k
  · exact (eq_minorOffset hpos (by linarith) (by linarith)).symm

theorem minorOffset_dx {dx d : Int} (h0 : 0 ≤ d) (hd : d ≤ dx) : minorOffset dx d dx = d := by
  obtain rfl | h := (h0.trans hd).eq_or_lt
  · rw [minorOffset_of_dx_eq_zero]; omega
  · exact (eq_minorOffset h (by linarith [mul_comm d dx]) (by linarith [mul_comm d dx])).symm

theorem minorOffset_mono {dx d k k' : Int} (hdx : 0 ≤ dx) (hd : 0 ≤ d) (hk : k ≤ k') :
    minorOffset dx d k ≤ minorOffset dx d k' := by
  unfold minorOffset
  split
  · exact le_rfl
  · have : 2 * d * k ≤ 2 * d * k' := Int.mul_le_mul_of_nonneg_left hk (by omega)
    exact Int.ediv_le_ediv (by omega) (by omega)

/-- One conditional step of the minor coordinate per point is enough (R134 (c), (d)). -/
theorem minorOffset_succ {dx d : Int} (k : Int) (h0 : 0 ≤ d) (hd : d ≤ dx) :
    minorOffset dx d (k + 1) = minorOffset dx d k ∨ minorOffset dx d (k + 1) = minorOffset dx d k + 1 := by
  have hmono : minorOffset dx d k ≤ minorOffset dx d (k + 1) := minorOffset_mono (h0.trans hd) h0 (by omega)
  have hstep : minorOffset dx d (k + 1) ≤ minorOffset dx d k + 1 := by
    unfold minorOffset
    split
    · decide
    · have hdx : 0 < dx := by omega
      calc (2 * d * (k + 1) + dx - 1) / (2 * dx)
          ≤ (2 * d * k + dx - 1 + 2 * dx) / (2 * dx) := Int.ediv_le_ediv (by omega) (by linarith)
        _ = (2 * d * k + dx - 1) / (2 * dx) + 1 := Int.add_ediv_of_dvd_right (dvd_refl _) |>.trans (by
            rw [Int.ediv_self (by omega)])
  omega

/-- The offset as a ceiling: `-(-a / b)` rounds up. -/
theorem minorOffset_eq_ceil {dx : Int} (d k : Int) (hdx : 0 < dx) :
    minorOffset dx d k = -((dx - 2 * d * k) / (2 * dx)) := by
  have hdiv := Int.mul_ediv_add_emod (dx - 2 * d * k) (2 * dx)
  have hlo := Int.emod_nonneg (dx - 2 * d * k) (show 2 * dx ≠ 0 by omega)
  have hhi := Int.emod_lt_of_pos (dx - 2 * d * k) (show 0 < 2 * dx by omega)
  refine (eq_minorOffset hdx ?_ ?_).symm
  · linarith
  · linarith

/-! ### Points in (major, minor) form -/

/-- The exchange of the roles of x and y on a steep line: to (major, minor) and back. -/
def Point.swapIf (steep : Bool) (p : Point) : Point := if steep then ⟨p.y, p.x⟩ else p

@[simp] theorem Point.swapIf_false (p : Point) : p.swapIf false = p := rfl

@[simp] theorem Point.swapIf_true (p : Point) : p.swapIf true = ⟨p.y, p.x⟩ := rfl

/-- `p` lies in the rectangle that `a` and `b` span. -/
def InBox (a b p : Point) : Prop := min a.x b.x ≤ p.x ∧ p.x ≤ max a.x b.x ∧ min a.y b.y ≤ p.y ∧ p.y ≤ max a.y b.y

theorem InBox.symm {a b p : Point} (h : InBox a b p) : InBox b a p := by
  unfold InBox at *
  omega

theorem InBox.swapIf {a b p : Point} (steep : Bool) (h : InBox a b p) :
    InBox (a.swapIf steep) (b.swapIf steep) (p.swapIf steep) := by
  obtain ⟨hx, hx', hy, hy'⟩ := h
  cases steep
  · exact ⟨hx, hx', hy, hy'⟩
  · exact ⟨hy, hy', hx, hx'⟩

theorem swapIf_major (steep : Bool) (p : Point) :
    (if steep then (p.swapIf steep).y else (p.swapIf steep).x) = p.x := by
  cases steep <;> rfl

theorem swapIf_minor (steep : Bool) (p : Point) :
    (if steep then (p.swapIf steep).x else (p.swapIf steep).y) = p.y := by
  cases steep <;> rfl

theorem Work.point_eq_swapIf (w : Work) : w.point = Point.swapIf w.steep ⟨w.x, w.y⟩ := rfl

/-! ### Normalisation (R131) -/

/-- The registers of a line whose ends are `p` and `q` in (major, minor) form, the walk at `p`. -/
def Work.load (w : Work) (steep : Bool) (p q : Point) : Work :=
  { w with
    steep := steep, x0 := p.x, y0 := p.y, x1 := q.x, y1 := q.y,
    dx := q.x - p.x, derr := 2 * (q.y - p.y).natAbs, ystep := sgn (q.y - p.y),
    err := 0, x := p.x, y := p.y }

/-- R131 loads the two points in ascending order of the major coordinate. -/
theorem startLine_eq_load (w : Work) (x0 y0 x1 y1 : Int) :
    let steep := steepOf x0 y0 x1 y1
    let a := Point.swapIf steep ⟨x0, y0⟩
    let b := Point.swapIf steep ⟨x1, y1⟩
    w.startLine x0 y0 x1 y1 = if b.x < a.x then w.load steep b a else w.load steep a b := by
  unfold Work.startLine Point.swapIf
  cases steepOf x0 y0 x1 y1 <;> dsimp only <;> split_ifs <;> rfl

theorem steepOf_comm (x0 y0 x1 y1 : Int) : steepOf x0 y0 x1 y1 = steepOf x1 y1 x0 y0 := by
  simp only [steepOf, decide_eq_decide]
  omega

/-- The ends of a line with equal major coordinates are one point: it is not longer in the minor one. -/
theorem eq_of_major_eq {x0 y0 x1 y1 : Int}
    (h : (Point.swapIf (steepOf x0 y0 x1 y1) ⟨x0, y0⟩).x = (Point.swapIf (steepOf x0 y0 x1 y1) ⟨x1, y1⟩).x) :
    x0 = x1 ∧ y0 = y1 := by
  cases hs : steepOf x0 y0 x1 y1
  · simp only [hs, Point.swapIf_false] at h
    have := of_decide_eq_false hs
    omega
  · simp only [hs, Point.swapIf_true] at h
    have := of_decide_eq_true hs
    omega

/-- R136: both calls come to the same registers. -/
theorem startLine_comm (w : Work) (x0 y0 x1 y1 : Int) : w.startLine x0 y0 x1 y1 = w.startLine x1 y1 x0 y0 := by
  have h := startLine_eq_load w x0 y0 x1 y1
  have h' := startLine_eq_load w x1 y1 x0 y0
  rw [steepOf_comm x1 y1] at h'
  obtain hlt | heq | hgt := lt_trichotomy (Point.swapIf (steepOf x0 y0 x1 y1) ⟨x0, y0⟩).x
    (Point.swapIf (steepOf x0 y0 x1 y1) ⟨x1, y1⟩).x
  · rw [h, h', if_neg hlt.not_gt, if_pos hlt]
  · obtain ⟨rfl, rfl⟩ := eq_of_major_eq heq
    rfl
  · rw [h, h', if_pos hgt, if_neg hgt.not_gt]

theorem lineStart_normalised (x0 y0 x1 y1 : Int) : Normalised (lineStart x0 y0 x1 y1) := startLine_normalised ..

theorem lineStart_steep_iff (x0 y0 x1 y1 : Int) :
    (lineStart x0 y0 x1 y1).steep = true ↔ (x0 - x1).natAbs < (y0 - y1).natAbs :=
  decide_eq_true_iff

theorem lineStart_of_flat {x0 y0 x1 y1 : Int} (h : ¬ (x0 - x1).natAbs < (y0 - y1).natAbs) :
    lineStart x0 y0 x1 y1 =
      if x1 < x0 then Work.reset.load false ⟨x1, y1⟩ ⟨x0, y0⟩ else Work.reset.load false ⟨x0, y0⟩ ⟨x1, y1⟩ := by
  have hload := startLine_eq_load Work.reset x0 y0 x1 y1
  rwa [show steepOf x0 y0 x1 y1 = false from decide_eq_false h] at hload

theorem lineStart_of_steep {x0 y0 x1 y1 : Int} (h : (x0 - x1).natAbs < (y0 - y1).natAbs) :
    lineStart x0 y0 x1 y1 =
      if y1 < y0 then Work.reset.load true ⟨y1, x1⟩ ⟨y0, x0⟩ else Work.reset.load true ⟨y0, x0⟩ ⟨y1, x1⟩ := by
  have hload := startLine_eq_load Work.reset x0 y0 x1 y1
  rwa [show steepOf x0 y0 x1 y1 = true from decide_eq_true h] at hload

/-! ### The points of a line (R134, R135) -/

/-- The minor offset of the `k`-th point of the line in the registers. -/
def Work.offset (w : Work) (k : Int) : Int := minorOffset w.dx (w.y1 - w.y0).natAbs k

/-- The `k`-th point of the line in the registers, by the closed form. -/
def Work.pointAt (w : Work) (k : Int) : Point := Point.swapIf w.steep ⟨w.x0 + k, w.y0 + w.ystep * w.offset k⟩

section Walk

variable {w : Work} (hw : Normalised w)
include hw

theorem Normalised.offset_zero : w.offset 0 = 0 := minorOffset_of_mul_eq_zero hw.dxNonneg (mul_zero _)

theorem Normalised.offset_dx : w.offset w.dx = (w.y1 - w.y0).natAbs := minorOffset_dx (by omega) hw.shallow

theorem Normalised.offset_succ (k : Int) : w.offset (k + 1) = w.offset k ∨ w.offset (k + 1) = w.offset k + 1 :=
  minorOffset_succ k (by omega) hw.shallow

theorem Normalised.offset_mem_Icc {k : Int} (h0 : 0 ≤ k) (hk : k ≤ w.dx) :
    0 ≤ w.offset k ∧ w.offset k ≤ (w.y1 - w.y0).natAbs := by
  rw [← hw.offset_zero, ← hw.offset_dx]
  exact ⟨minorOffset_mono hw.dxNonneg (by omega) h0, minorOffset_mono hw.dxNonneg (by omega) hk⟩

/-- Where the walk stands after `k` iterations: the steps made are the offset of R135. -/
theorem Normalised.iterate_eq (k : Nat) :
    (w.iterate k).x = w.x0 + k ∧ (w.iterate k).y = w.y0 + w.ystep * w.offset k ∧
      (w.iterate k).err = w.derr * k - 2 * (w.dx * w.offset k) := by
  obtain ⟨s, -, hx, hy, herr, hzero, hrange⟩ := iterate_position hw k
  have hs : s = w.offset k := by
    obtain h | h := hw.dxNonneg.eq_or_lt
    · rw [(hzero h.symm).1, Work.offset, ← h, minorOffset_of_dx_eq_zero]
    · obtain ⟨hlo, hhi⟩ := hrange h
      rw [herr, hw.derr] at hlo hhi
      exact eq_minorOffset h hlo hhi
  subst hs
  exact ⟨hx, hy, herr⟩

theorem Normalised.iterate_point (k : Nat) : (w.iterate k).point = w.pointAt k := by
  obtain ⟨hx, hy, -⟩ := hw.iterate_eq k
  rw [Work.point_eq_swapIf, (iterate_sameLine w k).steep, hx, hy]
  rfl

/-- The accumulator at every plot (R134 (d)): R26's range, and 0 on a line of one point. -/
theorem Normalised.iterate_err_mem_Ioc (k : Nat) :
    (w.dx = 0 → (w.iterate k).err = 0) ∧ (0 < w.dx → -w.dx < (w.iterate k).err ∧ (w.iterate k).err ≤ w.dx) := by
  obtain ⟨s, -, -, -, herr, hzero, hrange⟩ := iterate_position hw k
  refine ⟨fun h => ?_, hrange⟩
  obtain ⟨rfl, hd⟩ := hzero h
  simp [herr, hd]

theorem Normalised.pointAt_zero : w.pointAt 0 = Point.swapIf w.steep ⟨w.x0, w.y0⟩ := by
  simp [Work.pointAt, hw.offset_zero]

theorem Normalised.pointAt_dx : w.pointAt w.dx = Point.swapIf w.steep ⟨w.x1, w.y1⟩ := by
  rw [Work.pointAt, hw.offset_dx, hw.ystep, sgn_mul_natAbs, hw.dx, add_sub_cancel, add_sub_cancel]

theorem Normalised.inBox_pointAt {k : Int} (h0 : 0 ≤ k) (hk : k ≤ w.dx) :
    InBox (w.pointAt 0) (w.pointAt w.dx) (w.pointAt k) := by
  rw [hw.pointAt_zero, hw.pointAt_dx]
  refine InBox.swapIf _ ⟨?_, ?_, ?_⟩
  · exact (min_le_left _ _).trans (le_add_of_nonneg_right h0)
  · exact le_max_of_le_right (by linarith [hw.dx])
  · obtain ⟨hoff0, hoff⟩ := hw.offset_mem_Icc h0 hk
    rw [hw.ystep]
    exact add_sgn_mul_mem_Icc _ _ hoff0 hoff

/-- No step of the minor coordinate when `dy == 0` (R134 (e)). -/
theorem Normalised.iterate_of_level (h : w.ystep = 0) (k : Nat) :
    (w.iterate k).derr = 0 ∧ (w.iterate k).err = 0 ∧ (w.iterate k).y = w.y := by
  have hdy : (w.y1 - w.y0).natAbs = 0 := natAbs_eq_zero_of_sgn (hw.ystep ▸ h)
  have hderr : w.derr = 0 := by rw [hw.derr, hdy]; rfl
  obtain ⟨-, hy, herr⟩ := hw.iterate_eq k
  have hoff : w.offset k = 0 := by
    rw [Work.offset, hdy]
    exact minorOffset_of_mul_eq_zero hw.dxNonneg (zero_mul _)
  rw [(iterate_sameLine w k).derr, herr, hy, hoff, hderr, hw.y]
  simp

end Walk

section Points

variable (x0 y0 x1 y1 : Int)

theorem linePoints_length : (linePoints x0 y0 x1 y1).length = (lineStart x0 y0 x1 y1).dx.toNat + 1 := by
  simp [linePoints]

/-- The closed form of the list (R135). -/
theorem linePoints_getElem? {k : Nat} (hk : (k : Int) ≤ (lineStart x0 y0 x1 y1).dx) :
    (linePoints x0 y0 x1 y1)[k]? = some ((lineStart x0 y0 x1 y1).pointAt k) := by
  rw [linePoints, List.getElem?_map, lineTrace_getElem? _ (by omega), Option.map_some,
    (lineStart_normalised ..).iterate_point]

theorem exists_pointAt_of_mem_linePoints {p : Point} (h : p ∈ linePoints x0 y0 x1 y1) :
    ∃ k : Nat, (k : Int) ≤ (lineStart x0 y0 x1 y1).dx ∧ p = (lineStart x0 y0 x1 y1).pointAt k := by
  obtain ⟨k, hk, rfl⟩ := List.getElem_of_mem h
  have hdx := (lineStart_normalised x0 y0 x1 y1).dxNonneg
  have hle : (k : Int) ≤ (lineStart x0 y0 x1 y1).dx := by rw [linePoints_length] at hk; omega
  exact ⟨k, hle, List.getElem_eq_iff hk |>.mpr (linePoints_getElem? _ _ _ _ hle)⟩

/-- A relation holds along the points of a line when it holds from each to the next by the closed form. -/
theorem linePoints_isChain {R : Point → Point → Prop}
    (h : ∀ k : Int, R ((lineStart x0 y0 x1 y1).pointAt k) ((lineStart x0 y0 x1 y1).pointAt (k + 1))) :
    (linePoints x0 y0 x1 y1).IsChain R := by
  rw [List.isChain_iff_getElem]
  intro k hk
  rw [linePoints_length] at hk
  have e := linePoints_getElem? x0 y0 x1 y1 (k := k) (by omega)
  have e' := linePoints_getElem? x0 y0 x1 y1 (k := k + 1) (by omega)
  rw [(List.getElem_eq_iff _).mpr e, (List.getElem_eq_iff _).mpr e']
  exact h k

/-- The two ends of a line are its operand points, in one order or the other. -/
theorem pointAt_ends :
    let w := lineStart x0 y0 x1 y1
    (w.pointAt 0 = ⟨x0, y0⟩ ∧ w.pointAt w.dx = ⟨x1, y1⟩) ∨ (w.pointAt 0 = ⟨x1, y1⟩ ∧ w.pointAt w.dx = ⟨x0, y0⟩) := by
  intro w
  have hw : Normalised w := lineStart_normalised ..
  rw [hw.pointAt_zero, hw.pointAt_dx]
  exact startLine_ends ..

theorem head?_linePoints : (linePoints x0 y0 x1 y1).head? = some ((lineStart x0 y0 x1 y1).pointAt 0) := by
  rw [List.head?_eq_getElem?]
  exact linePoints_getElem? _ _ _ _ (lineStart_normalised ..).dxNonneg

theorem getLast?_linePoints :
    (linePoints x0 y0 x1 y1).getLast? = some ((lineStart x0 y0 x1 y1).pointAt (lineStart x0 y0 x1 y1).dx) := by
  have hdx := Int.toNat_of_nonneg (lineStart_normalised x0 y0 x1 y1).dxNonneg
  rw [List.getLast?_eq_getElem?, linePoints_length, Nat.add_sub_cancel, linePoints_getElem? _ _ _ _ hdx.le, hdx]

theorem operands_mem_linePoints : ⟨x0, y0⟩ ∈ linePoints x0 y0 x1 y1 ∧ ⟨x1, y1⟩ ∈ linePoints x0 y0 x1 y1 := by
  have hfirst := List.mem_of_mem_head? (head?_linePoints x0 y0 x1 y1)
  have hlast := List.mem_of_getLast? (getLast?_linePoints x0 y0 x1 y1)
  obtain ⟨e, e'⟩ | ⟨e, e'⟩ := pointAt_ends x0 y0 x1 y1 <;> rw [e] at hfirst <;> rw [e'] at hlast
  · exact ⟨hfirst, hlast⟩
  · exact ⟨hlast, hfirst⟩

/-- `dx` is the longer of the two distances (R134 (a)). -/
theorem lineStart_dx : (lineStart x0 y0 x1 y1).dx = max (x0 - x1).natAbs (y0 - y1).natAbs := by
  by_cases hs : (x0 - x1).natAbs < (y0 - y1).natAbs
  · rw [lineStart_of_steep hs]
    split <;> dsimp only [Work.load] <;> omega
  · rw [lineStart_of_flat hs]
    split <;> dsimp only [Work.load] <;> omega

end Points

/-! ### Where a line faults (R137) -/

theorem inBox_of_mem_linePoints {x0 y0 x1 y1 : Int} {p : Point} (h : p ∈ linePoints x0 y0 x1 y1) :
    InBox ⟨x0, y0⟩ ⟨x1, y1⟩ p := by
  obtain ⟨k, hk, rfl⟩ := exists_pointAt_of_mem_linePoints _ _ _ _ h
  have hw := lineStart_normalised x0 y0 x1 y1
  have hbox : InBox ((lineStart x0 y0 x1 y1).pointAt 0) ((lineStart x0 y0 x1 y1).pointAt (lineStart x0 y0 x1 y1).dx)
      ((lineStart x0 y0 x1 y1).pointAt k) := hw.inBox_pointAt (by omega) hk
  obtain ⟨e, e'⟩ | ⟨e, e'⟩ := pointAt_ends x0 y0 x1 y1
  · rwa [e, e'] at hbox
  · rw [e, e'] at hbox
    exact hbox.symm

/-- The image is a rectangle (R90), under either mapping. -/
theorem inBounds_pixelOf_of_inBox {s : State} {m : AxisMap} {a b p : Point}
    (ha : inBounds s (pixelOf m a).1 (pixelOf m a).2 = true) (hb : inBounds s (pixelOf m b).1 (pixelOf m b).2 = true)
    (hp : InBox a b p) : inBounds s (pixelOf m p).1 (pixelOf m p).2 = true := by
  rw [inBounds_iff] at *
  unfold InBox at hp
  cases m
  · simp only [pixelOf] at *
    omega
  · simp only [pixelOf] at *
    omega

/-- A line is inside the image exactly when its two operand points are. -/
theorem forall_linePoints_inBounds_iff (s : State) (m : AxisMap) (x0 y0 x1 y1 : Int) :
    (∀ p ∈ (linePoints x0 y0 x1 y1).map (pixelOf m), inBounds s p.1 p.2 = true) ↔
      inBounds s (pixelOf m ⟨x0, y0⟩).1 (pixelOf m ⟨x0, y0⟩).2 = true ∧
      inBounds s (pixelOf m ⟨x1, y1⟩).1 (pixelOf m ⟨x1, y1⟩).2 = true := by
  rw [List.forall_mem_map]
  constructor
  · intro h
    obtain ⟨h0, h1⟩ := operands_mem_linePoints x0 y0 x1 y1
    exact ⟨h _ h0, h _ h1⟩
  · rintro ⟨ha, hb⟩ p hp
    exact inBounds_pixelOf_of_inBox ha hb (inBox_of_mem_linePoints hp)

/-- A command that plots answers OutOfBounds exactly when one of its pixels is out of bounds (R145). -/
theorem Drew.rspStatus_finish {L : List (Int × Int)} {b : Byte} {s : State} {r : Run} (h : Drew L b s r) :
    rspStatus r.finish.rsp = Status.outOfBounds.code ↔ ¬ ∀ p ∈ L, inBounds s p.1 p.2 = true := by
  by_cases hin : ∀ p ∈ L, inBounds s p.1 p.2 = true
  · obtain ⟨w, rfl⟩ := h.going hin
    simpa using hin
  · obtain ⟨p, k, w, hp, hout, rfl⟩ := h.failed (by simpa using hin)
    simpa using ⟨p.1, p.2, hp, hout⟩

/-- A drawing command that the lifecycle table lets proceed ends as its run does. -/
theorem Ends.exists_drew {i : Instr} {v : Word32} {s t : State} (h : Ends i s t) (hv : rasterColor i = some v)
    (hl : s.live = true) (hw : i.wellFormed s.cfg = true) :
    ∃ r, Drew (commandPixels s.cfg.axisMap i) (lowByte v) s r ∧ t = r.finish := by
  cases h with
  | drew i v' s r hv' _ _ hr =>
    obtain rfl : v' = v := by cases i <;> cases hv <;> cases hv' <;> rfl
    exact ⟨r, hr, rfl⟩
  | invalid i s _ hp => cases i <;> cases hv <;> simp [lifecycleProceeds, hl] at hp
  | absent _ _ _ _ hn => simp [Instr.wellFormed, hn] at hw
  | created | exhausted | released | got | missed => cases hv

/-! ### The sort of three vertices (R139) -/

/-- The three exchanges as a decision tree. -/
theorem sortByX_eq (a b c : Point) :
    sortByX a b c =
      if b.x < a.x then
        if c.x < b.x then ⟨c, b, a⟩ else if c.x < a.x then ⟨b, c, a⟩ else ⟨b, a, c⟩
      else if c.x < a.x then
        if a.x < b.x then ⟨c, a, b⟩ else ⟨c, b, a⟩
      else if c.x < b.x then ⟨a, c, b⟩ else ⟨a, b, c⟩ := by
  unfold sortByX
  dsimp only
  split_ifs <;> rfl

theorem sortByX_ascending (a b c : Point) :
    (sortByX a b c).v0.x ≤ (sortByX a b c).v1.x ∧ (sortByX a b c).v1.x ≤ (sortByX a b c).v2.x := by
  rw [sortByX_eq]
  split_ifs <;> dsimp only <;> omega

theorem sortByX_perm (a b c : Point) :
    [(sortByX a b c).v0, (sortByX a b c).v1, (sortByX a b c).v2].Perm [a, b, c] := by
  rw [sortByX_eq]
  split_ifs <;> rw [List.perm_iff_count] <;> intro p <;> simp only [List.count_cons, List.count_nil] <;> omega

end Machine

open Machine

/-! ### The obligations -/

/-- Settles O26: the walk is at the `k`-th point of the closed form after `k` iterations. -/
theorem lineClosedForm : Obligations.LineClosedForm := by
  intro x0 y0 x1 y1 k w hk major minor
  have hw : Normalised w := lineStart_normalised ..
  exact ⟨linePoints_getElem? _ _ _ _ hk, hw.offset_zero, hw.offset_dx, minorOffset_eq_ceil _ _⟩

/-- Settles O25: the list by its closed form, the accumulator by the walk's invariant. -/
theorem linePointLaws : Obligations.LinePointLaws := by
  intro x0 y0 x1 y1 w pts trace major minor
  have hw : Normalised w := lineStart_normalised ..
  have major_pointAt (k : Int) : major (w.pointAt k) = w.x0 + k := swapIf_major ..
  have minor_pointAt (k : Int) : minor (w.pointAt k) = w.y0 + w.ystep * w.offset k := swapIf_minor ..
  have chain : pts.IsChain fun p q => major q = major p + 1 ∧ (minor q = minor p ∨ minor q = minor p + w.ystep) := by
    refine linePoints_isChain _ _ _ _ fun k => ?_
    rw [major_pointAt, major_pointAt, minor_pointAt, minor_pointAt]
    refine ⟨by ring, (hw.offset_succ k).imp (fun h => ?_) fun h => ?_⟩
    · rw [h]
    · rw [h]; ring
  refine ⟨?_, ⟨_, _, head?_linePoints .., getLast?_linePoints .., ?_, pointAt_ends ..⟩, chain, fun u hu => ?_,
    fun h u hu => ?_, fun h => chain.imp fun p q hpq => ?_, fun h => chain.imp fun p q hpq => ?_⟩
  · rw [linePoints_length, ← lineStart_dx, Nat.cast_add_one, Int.toNat_of_nonneg hw.dxNonneg]
  · rw [major_pointAt, major_pointAt]
    exact Int.add_le_add_left hw.dxNonneg _
  · obtain ⟨k, -, rfl⟩ := mem_lineTrace hu
    refine ⟨?_, (hw.iterate_err_mem_Ioc (k + 1)).2⟩
    rw [(iterate_sameLine w k).derr, hw.derr]
    have := hw.iterate_err_mem_Ioc k
    have := hw.dxNonneg
    have := hw.shallow
    omega
  · obtain ⟨k, -, rfl⟩ := mem_lineTrace hu
    exact hw.iterate_of_level h k
  · omega
  · omega

/-- Settles O27: the registers at the start of the line are the same. -/
theorem lineIsSymmetricInItsEndpoints : Obligations.LineIsSymmetricInItsEndpoints := by
  refine ⟨fun x0 y0 x1 y1 => ?_, fun s x0 y0 x1 y1 color => ?_⟩
  · rw [linePoints, lineStart, startLine_comm]
    rfl
  · have hbody : lineBody x0 y0 x1 y1 color = lineBody x1 y1 x0 y0 color := by
      funext s
      rw [lineBody, drawLine, startLine_comm]
      rfl
    exact congrArg (command .image · s) hbody

/-- Settles O28: the box holds for the points by the closed form; the image is a rectangle, so it holds the line when it holds
the ends, which are plotted. -/
theorem lineFaultsExactlyAtItsEndpoints : Obligations.LineFaultsExactlyAtItsEndpoints := by
  refine ⟨fun x0 y0 x1 y1 p hp => inBox_of_mem_linePoints hp, ?_⟩
  intro s x0 y0 x1 y1 color hh hl a b
  obtain ⟨t, ht, hends⟩ := exec_ends_of_running (.line x0 y0 x1 y1 color) hh
  obtain ⟨r, hr, rfl⟩ := hends.exists_drew rfl hl rfl
  refine ⟨_, ht, ?_⟩
  rw [hr.rspStatus_finish]
  exact not_congr (forall_linePoints_inBounds_iff ..)

/-- Settles O24: the registers are loaded by the steep flag and the order of the major coordinates, and YSTEP is the sign of the
slope. -/
theorem lineIsNormalisedAsR131Says : Obligations.LineIsNormalisedAsR131Says := by
  intro x0 y0 x1 y1 w steep
  have hw : Normalised w := lineStart_normalised ..
  have hflat : ¬ steep → w = _ := lineStart_of_flat
  have hsteep : steep → w = _ := lineStart_of_steep
  refine ⟨lineStart_steep_iff .., fun h hle => ?_, fun h hlt => ?_, fun h hle => ?_, fun h hlt => ?_,
    hw.dx, hw.derr, hw.shallow, ?_⟩
  · rw [hflat h, if_neg hle.not_gt]
    exact ⟨rfl, rfl, rfl, rfl⟩
  · rw [hflat h, if_pos hlt]
    exact ⟨rfl, rfl, rfl, rfl⟩
  · rw [hsteep h, if_neg hle.not_gt]
    exact ⟨rfl, rfl, rfl, rfl⟩
  · rw [hsteep h, if_pos hlt]
    exact ⟨rfl, rfl, rfl, rfl⟩
  · rw [hw.ystep, sgn_eq_sign]
    exact ⟨fun h => Int.sign_eq_one_of_pos (sub_pos.mpr h),
      fun h => Int.sign_eq_zero_iff_zero.mpr (sub_eq_zero.mpr h.symm), fun h => Int.sign_eq_neg_one_of_neg (sub_neg.mpr h)⟩

/-- Settles O31: each way the three x can stand to each other takes one path of the decision tree. -/
theorem sortByXOrdersThreeVertices : Obligations.SortByXOrdersThreeVertices := by
  intro a b c v
  obtain ⟨h01, h12⟩ := sortByX_ascending a b c
  have hv : v = _ := sortByX_eq a b c
  refine ⟨h01, h12, sortByX_perm a b c, fun _ _ => ?_, fun _ _ => ?_, fun _ _ => ?_, fun _ _ => ?_, fun _ _ => ?_,
    fun _ _ => ?_, fun _ _ => ?_⟩
  · rw [hv, if_neg (by omega), if_neg (by omega), if_neg (by omega)]
  · rw [hv, if_neg (by omega), if_neg (by omega), if_pos (by omega)]
  · rw [hv, if_neg (by omega), if_pos (by omega), if_pos (by omega)]
  · rw [hv, if_neg (by omega), if_pos (by omega), if_neg (by omega)]
  · rw [hv, if_pos (by omega), if_neg (by omega), if_neg (by omega)]
  · rw [hv, if_pos (by omega), if_neg (by omega), if_pos (by omega)]
  · rw [hv, if_pos (by omega), if_pos (by omega)]

end Sys2Proof

/-! The lifecycle fault (60_exceptions.md R175): the settled obligation about it. -/

namespace Sys2Proof

namespace Machine

theorem lifecycleProceeds_of_pixelValue {i : Instr} {v : Word32} (hv : pixelValue i = some v) (s : State) :
    lifecycleProceeds s i = s.live := by
  cases i with
  | create => cases hv
  | _ => rfl

theorem lifecycleProceeds_create_of_alloc {s : State} (ha : s.alloc = false) (w h n m : Word32) :
    lifecycleProceeds s (.create w h n m) = true := by
  simp [lifecycleProceeds, ha]

/-- A command's own rule reports no InvalidState for its pixels: they all succeed, or one is out of bounds (R145). -/
theorem rspStatus_finish_ne_invalidState (r : Run) : rspStatus r.finish.rsp ≠ Status.invalidState.code := by
  cases r with
  | going => simp
  | failed => simp

/-- The two sides of the lifecycle table (R110): where it forbids a command, InvalidState is raised and the command's own rule is
not reached; where it lets the command proceed, that rule answers, and InvalidState is none of its statuses. -/
theorem Ends.forbidden_or_proceeds {i : Instr} {s t : State} (h : Ends i s t) (hw : i.wellFormed s.cfg = true) :
    (lifecycleProceeds s i = false ∧ t = raisePlain .invalidState s) ∨
    (lifecycleProceeds s i = true ∧ rspStatus t.rsp ≠ Status.invalidState.code) := by
  cases h with
  | invalid _ _ _ hp => exact .inl ⟨hp, rfl⟩
  | absent _ _ _ _ hn => exact absurd hw (by simp [Instr.wellFormed, hn])
  | created _ _ _ _ _ ha => exact .inr ⟨lifecycleProceeds_create_of_alloc ha .., by simp⟩
  | exhausted _ _ _ _ _ ha => exact .inr ⟨lifecycleProceeds_create_of_alloc ha .., by simp⟩
  | drew _ _ _ r hv hl =>
    exact .inr ⟨(lifecycleProceeds_of_pixelValue hv s).trans hl, rspStatus_finish_ne_invalidState r⟩
  | released _ hl => exact .inr ⟨hl, by simp⟩
  | got _ _ _ _ hl => exact .inr ⟨hl, by simp⟩
  | missed _ _ _ hl => exact .inr ⟨hl, by simp⟩

end Machine

open Machine

/-- Settles O19: on the forbidden side of the lifecycle table raising the fault is the only update, on the other side the command's
own rule answers. -/
theorem invalidStateExactlyByTheLifecycleTable : Obligations.InvalidStateExactlyByTheLifecycleTable := by
  intro i s hh hw
  obtain ⟨t, ht, hends⟩ := exec_ends_of_running i hh
  refine ⟨t, ht, ?_⟩
  obtain ⟨hp, rfl⟩ | ⟨hp, hne⟩ := hends.forbidden_or_proceeds hw
  · have ha : Answers (raisePlain .invalidState s) .invalidState 0 0 0 := answers_raisePlain _ _
    exact ⟨iff_of_true ha.status hp, fun _ => ⟨ha, ⟨rfl, rfl, rfl, rfl, rfl, rfl⟩, ⟨rfl, rfl, rfl, rfl, rfl, rfl⟩, rfl, rfl⟩⟩
  · have hnot : ¬ lifecycleProceeds s i = false := by simp [hp]
    exact ⟨iff_of_false hne hnot, fun hf => absurd hf hnot⟩

end Sys2Proof

/-! Encoding and decoding as inverses of each other (30_encoding.md R70 to R74, R82): the settled obligations about them. -/

namespace Sys2Proof

open Laws.EncodedHeader (opcodeOf Statement)

/-! ### The encoding of a command -/

theorem encode_header (i : Instr) : Statement i := by
  cases i with
  | create w h n m => exact Laws.EncodedHeader.create w h n m
  | release => exact Laws.EncodedHeader.release
  | setpoint r c v => exact Laws.EncodedHeader.setpoint r c v
  | getpoint r c => exact Laws.EncodedHeader.getpoint r c
  | line x0 y0 x1 y1 color => exact Laws.EncodedHeader.line x0 y0 x1 y1 color
  | tri x0 y0 x1 y1 x2 y2 color => exact Laws.EncodedHeader.tri x0 y0 x1 y1 x2 y2 color
  | filln x y color => exact Laws.EncodedHeader.filln x y color

/-- The encoding carries each operand in the word its row reads it from (R71). -/
theorem commandRow_encode {p : Params} {i : Instr} (hw : i.wellFormed p = true) : CommandRow p (encode i) i := by
  cases i with
  | create w h n m => simpa [encode] using CommandRow.create (p := p) (P := packetOf 0x01 w h n 0 0 0 m)
  | release => exact .release
  | setpoint r c v => simpa [encode] using CommandRow.setpoint (p := p) (P := packetOf 0x03 r c 0 0 0 0 v)
  | getpoint r c => simpa [encode] using CommandRow.getpoint (p := p) (P := packetOf 0x04 r c 0 0 0 0 0)
  | line x0 y0 x1 y1 color => simpa [encode] using CommandRow.line (p := p) (P := packetOf 0x05 x0 y0 x1 y1 0 0 color)
  | tri x0 y0 x1 y1 x2 y2 color => simpa [encode] using CommandRow.tri (p := p) (P := packetOf 0x06 x0 y0 x1 y1 x2 y2 color)
  | filln x y color => simpa [encode] using CommandRow.filln (P := packetOf 0x07 x y 0 0 0 0 color) hw

/-- The encoding leaves the dashes of its row zero (R71). -/
theorem wordsAreZero_encode (i : Instr) : wordsAreZero (encode i) (dashesOf i) = true := by
  cases i <;> simp [wordsAreZero, encode, dashesOf]

theorem decode_encode {p : Params} {i : Instr} (hw : i.wellFormed p = true) : decode p (encode i) = .ok i :=
  have ⟨hop, hrsv⟩ := encode_header i
  decode_eq_ok_iff.mpr ⟨commandRow_encode hw, hrsv, hop, wordsAreZero_encode i⟩

/-! ### A packet from its row -/

/-- A row reads each word but the first that it does not mark with a dash as an operand (R71). -/
theorem packetWord_encode_of_operand {p : Params} {P : Packet} {i : Instr} (row : CommandRow p P i) {k : Nat} (hk : k < 8)
    (hm : k ∉ 0 :: dashesOf i) : packetWord (encode i) k = packetWord P k := by
  cases row <;> interval_cases k <;> simp [encode, dashesOf] at hm ⊢

theorem encode_of_decode {p : Params} {P : Packet} {i : Instr} (h : decode p P = .ok i) : encode i = P := by
  obtain ⟨row, hr, ho, hz⟩ := decode_eq_ok_iff.mp h
  refine packet_ext fun k hk => ?_
  by_cases hm : k ∈ 0 :: dashesOf i
  · obtain rfl | hd := List.mem_cons.mp hm
    · rw [packetWord_zero_eq_iff.mpr ⟨hr, ho⟩, packetWord_zero_eq_iff.mpr (encode_header i).symm]
    · rw [wordsAreZero_iff.mp hz k hd, wordsAreZero_iff.mp (wordsAreZero_encode i) k hd]
  · exact packetWord_encode_of_operand row hk hm

/-! ### The obligations -/

/-- Settles O1: the encoding meets every condition of the row of its command. -/
theorem encodeThenDecodeReturnsTheCommand : Obligations.EncodeThenDecodeReturnsTheCommand :=
  fun _ _ => decode_encode

/-- Settles O2: a row fixes the opcode, the reserved bits and the dashes, and reads every other word as an operand. -/
theorem decodedPacketIsTheEncodingOfItsCommand : Obligations.DecodedPacketIsTheEncodingOfItsCommand :=
  fun _ _ _ h => ⟨encode_of_decode h, (decode_eq_ok_iff.mp h).1.wellFormed⟩

/-- Settles O4: the decoder runs on nine written-out packets. -/
theorem sampleWordsDecodeToTheirCommands : Obligations.SampleWordsDecodeToTheirCommands := by
  unfold Obligations.SampleWordsDecodeToTheirCommands
  decide

end Sys2Proof

/-! What every command leaves alone, and which lanes it may write (10_state.md sections 2, 3 and 5; 20_memory.md R50, R54, R59;
40_index_lane.md R101): the settled obligations about them. -/

namespace Sys2Proof

namespace Machine

/-! ### The end of a run of plots -/

theorem finish_eq_respond (r : Run) : ∃ q, r.finish = respond q r.state := by
  cases r with
  | going s => exact ⟨_, rfl⟩
  | failed row col s => exact ⟨_, rfl⟩

/-- A command that plots changes nothing but the lanes of in-bounds pixels of its list, the working registers and the answer. -/
theorem Drew.finish_eq {L : List (Int × Int)} {b : Byte} {s : State} {r : Run} (h : Drew L b s r) :
    ∃ q k w, r.finish = respond q ((s.withMem (paint s b (L.take k) s.mem)).withWork w) ∧
      ∀ p ∈ L.take k, inBounds s p.1 p.2 = true := by
  obtain ⟨k, w, hstate, hin⟩ := h.state
  obtain ⟨q, hq⟩ := finish_eq_respond r
  exact ⟨q, k, w, by rw [hq, hstate], hin⟩

theorem setPoint_state_work (r c : Int) (v : Word32) (s : State) : (setPoint r c v s).state.work = s.work := by
  cases h : inBounds s r c
  · rw [setPoint_outside v h]; rfl
  · rw [setPoint_inBounds v h]; rfl

theorem finish_work (r : Run) : r.finish.work = r.state.work := by
  obtain ⟨q, hq⟩ := finish_eq_respond r
  rw [hq, respond_work]

/-! ### The draw of a CREATE -/

/-- BUF after the CREATE of an image of `n` words: each is drawn afresh, and an image with no buffer draws none (R111). -/
def Memory.createDraw (m : Memory) (n : Nat) : Memory := if n > 0 then m.redraw n else m

theorem createDraw_of_pos (m : Memory) {n : Nat} (h : 0 < n) : m.createDraw n = m.redraw n := if_pos h

theorem createDraw_draws (m : Memory) (n : Nat) :
    (m.createDraw n).draws = if 0 < n then n :: m.draws else m.draws := by
  obtain rfl | h := n.eq_zero_or_pos
  · rfl
  · rw [createDraw_of_pos m h, if_pos h]
    rfl

theorem lane_createDraw_of_le (m : Memory) {n i k : Nat} (hk : k < 8) (h : n ≤ i) : (m.createDraw n).lane i k = m.lane i k := by
  obtain rfl | hpos := n.eq_zero_or_pos
  · rfl
  · rw [createDraw_of_pos m hpos, lane_redraw _ _ _ _ hk, if_neg h.not_gt]

theorem readWord_createDraw_of_lt (m : Memory) {n i : Nat} (h : i < n) :
    (m.createDraw n).readWord i = Config.draw (m.draws.length + 1) i := by
  rw [createDraw_of_pos m (Nat.zero_lt_of_lt h), readWord_redraw m h]

/-! ### The frame of a command -/

theorem Ends.sameOutside {i : Instr} {s t : State} (h : Ends i s t) : SameOutside s t := by
  cases h with
  | drew _ _ _ r _ _ _ hr =>
    obtain ⟨q, k, w, e, -⟩ := hr.finish_eq
    rw [e]
    exact ⟨rfl, rfl, rfl, rfl, rfl, rfl⟩
  | _ => exact ⟨rfl, rfl, rfl, rfl, rfl, rfl⟩

/-- Only CREATE and RELEASE write the lifecycle flags and the descriptor (R22, R23). -/
theorem Ends.sameDescriptor {i : Instr} {s t : State} (h : Ends i s t) (hrel : i ≠ .release)
    (hcre : ∀ w h n m, i ≠ .create w h n m) : SameDescriptor s t := by
  cases h with
  | drew _ _ _ r _ _ _ hr =>
    obtain ⟨q, k, w, e, -⟩ := hr.finish_eq
    rw [e]
    exact ⟨rfl, rfl, rfl, rfl, rfl, rfl⟩
  | created => exact (hcre _ _ _ _ rfl).elim
  | exhausted => exact (hcre _ _ _ _ rfl).elim
  | released => exact absurd rfl hrel
  | invalid | absent | got | missed => exact ⟨rfl, rfl, rfl, rfl, rfl, rfl⟩

/-- A command other than CREATE writes the lanes of in-bounds pixels of its list and no other. -/
theorem Ends.lane_eq {i : Instr} {s t : State} (h : Ends i s t) (hcre : ∀ w h n m, i ≠ .create w h n m) {word k : Nat}
    (hk : k < 8) (hout : ∀ p ∈ commandPixels s.cfg.axisMap i, inBounds s p.1 p.2 = true → pixelAddr s p.1 p.2 ≠ ⟨word, 8 * k⟩) :
    t.mem.lane word k = s.mem.lane word k := by
  cases h with
  | drew _ _ _ r _ _ _ hr =>
    obtain ⟨q, n, w, e, hin⟩ := hr.finish_eq
    rw [e, respond_mem, withWork_mem, withMem_mem, lane_paint _ _ _ _ _ _ hk, if_neg]
    rintro ⟨p, hp, hpa⟩
    exact hout p (List.mem_of_mem_take hp) (hin p hp) hpa
  | created => exact (hcre _ _ _ _ rfl).elim
  | exhausted => exact (hcre _ _ _ _ rfl).elim
  | invalid | absent | released | got | missed => rfl

/-- CREATE draws the words of the image and leaves every other word alone (R111). -/
theorem Ends.lane_create_eq {w h n m : Word32} {s t : State} (he : Ends (.create w h n m) s t) {word k : Nat} (hk : k < 8)
    (hword : needOf w.toNat h.toNat ≤ word) : t.mem.lane word k = s.mem.lane word k := by
  cases he with
  | created => exact lane_createDraw_of_le s.mem hk hword
  | drew _ _ _ _ hv => cases hv
  | invalid | exhausted => rfl

theorem Ends.mem_eq {i : Instr} {s t : State} (h : Ends i s t) (hi : i = .release ∨ ∃ r c, i = .getpoint r c) :
    t.mem = s.mem := by
  obtain rfl | ⟨r, c, rfl⟩ := hi
  · cases h with
    | drew _ _ _ _ hv => cases hv
    | invalid | released => rfl
  · cases h with
    | drew _ _ _ _ hv => cases hv
    | invalid | got | missed => rfl

/-- A pixel-store command does not use the rasterizer (R26). -/
theorem exec_work_eq {i : Instr} {s t : State} (h : exec i s = .next t) (hi : rasterColor i = none) : t.work = s.work := by
  cases i with
  | setpoint r c v =>
    obtain ⟨-, ⟨-, rfl⟩ | ⟨-, rfl⟩⟩ := command_next.mp h
    · exact (finish_work _).trans (setPoint_state_work ..)
    · rfl
  | create | release | getpoint =>
    cases (exec_ends h).2 with
    | drew _ _ _ _ hv => cases hv
    | _ => rfl
  | line | tri | filln => cases hi

/-! ### The lanes of a row -/

/-- The pixels of a row are the lanes of its words in order, as long as there are columns (R101). -/
theorem exists_pixelAddr_eq_iff (s : State) {r j k : Nat} (hr : r < s.height.toNat) (hj : j < s.stride) (hk : k < 8) :
    (∃ row col, inBounds s row col = true ∧ pixelAddr s row col = ⟨r * s.stride + j, 8 * k⟩) ↔ 8 * j + k < s.width.toNat := by
  constructor
  · rintro ⟨row, col, hin, haddr⟩
    obtain ⟨row, col, rfl, rfl, -, hcol⟩ := exists_nat_of_inBounds hin
    have hword : row * s.stride + col / 8 = r * s.stride + j := congrArg LaneAddr.word haddr
    have hbit : 8 * (col % 8) = 8 * k := congrArg LaneAddr.bit haddr
    have hquot := congrArg (· % s.stride) hword
    have hlt : col / 8 < s.stride := col_div_lt_strideOf hcol
    simp only [Nat.mul_add_mod', Nat.mod_eq_of_lt hlt, Nat.mod_eq_of_lt hj] at hquot
    omega
  · intro h
    refine ⟨r, (8 * j + k : Nat), (inBounds_iff ..).mpr (by omega), laneAddr_eq_iff.mpr ⟨?_, ?_⟩⟩
    · rw [pixelAddr_natCast, index_word, show (8 * j + k) / 8 = j by omega]; rfl
    · rw [pixelAddr_natCast, index_bit, show (8 * j + k) % 8 = k by omega]

end Machine

open Machine

/-! ### The obligations -/

/-- Settles O14, lane by lane. -/
theorem memReadReturnsTheLatestMemWrite : Obligations.MemReadReturnsTheLatestMemWrite := by
  intro m i j w
  refine word_ext fun k hk => ?_
  rw [laneExtract_readWord _ _ _ hk, lane_writeWord _ _ _ _ _ hk, apply_ite (laneExtract · (8 * k)),
    laneExtract_readWord _ _ _ hk]

/-- Settles O15: the columns of a row fill its lanes in order, and a plot is made at an in-bounds pixel only. -/
theorem spareLanesAreNeverWritten : Obligations.SpareLanesAreNeverWritten := by
  refine ⟨fun s r j k => exists_pixelAddr_eq_iff s, fun i s t word k hk h hcre hspare => ?_⟩
  exact (exec_ends h).2.lane_eq hcre hk fun p _ => hspare p.1 p.2

/-- Settles O47, from the frame of each way a command ends. -/
theorem commandsKeepWhatTheyDoNotWrite : Obligations.CommandsKeepWhatTheyDoNotWrite := by
  intro i s t h
  have he := (exec_ends h).2
  refine ⟨he.sameOutside, fun ⟨hrel, hcre⟩ => he.sameDescriptor hrel hcre, exec_work_eq h, he.mem_eq,
    fun hcre word k hk hout => he.lane_eq hcre hk fun p hp _ => hout p hp, ?_⟩
  rintro w h n m rfl word k hk
  exact he.lane_create_eq hk

end Sys2Proof

/-! The pixel-store commands, where they complete and where they fault (41_pixel_commands.md R111 to R114): the settled obligations
about them. -/

namespace Sys2Proof

namespace Machine

/-! ### Answers -/

theorem low32_zero : low32 0 = 0 := by simp [low32]

theorem answers_respondOk (d : Byte) (s : State) : Answers (respondOk d s) .ok d 0 0 where
  offered := rfl
  status := by simp
  data := by simp
  frow := by simp [low32_zero]
  fcol := by simp [low32_zero]

theorem answers_raise (f : Status) (row col : Int) (s : State) : Answers (raise f row col s) f 0 row col where
  offered := rfl
  status := by simp
  data := by simp
  frow := by simp
  fcol := by simp

/-! ### CREATE -/

theorem createBody_of_fits {s : State} {w h : Word32} (hn : needOf w.toNat h.toNat ≤ s.cfg.memWords) (n m : Word32) :
    createBody w h n m s = respondOk 0
      { s with live := true, width := w, height := h, maxval := m, name := n,
               mem := s.mem.createDraw (needOf w.toNat h.toNat) } :=
  if_neg hn.not_gt

theorem createBody_of_exhausted {s : State} {w h : Word32} (hn : s.cfg.memWords < needOf w.toNat h.toNat) (n m : Word32) :
    createBody w h n m s = raisePlain .allocationFailure { s with halt := true } :=
  if_pos hn

theorem exec_create_of_fits {s : State} {w h : Word32} (hh : s.halt = false) (ha : s.alloc = false)
    (hn : needOf w.toNat h.toNat ≤ s.cfg.memWords) (n m : Word32) :
    exec (.create w h n m) s = .next (respondOk 0
      { s with live := true, width := w, height := h, maxval := m, name := n,
               mem := s.mem.createDraw (needOf w.toNat h.toNat) }) :=
  command_next.mpr ⟨hh, .inl ⟨by simp [lifecycleAllows, ha], (createBody_of_fits hn n m).symm⟩⟩

theorem exec_create_of_exhausted {s : State} {w h : Word32} (hh : s.halt = false) (ha : s.alloc = false)
    (hn : s.cfg.memWords < needOf w.toNat h.toNat) (n m : Word32) :
    exec (.create w h n m) s = .next (raisePlain .allocationFailure { s with halt := true }) :=
  command_next.mpr ⟨hh, .inl ⟨by simp [lifecycleAllows, ha], (createBody_of_exhausted hn n m).symm⟩⟩

theorem alloc_iff_of_live {s : State} (h : s.live = true) : s.alloc = true ↔ 0 < s.width.toNat * s.height.toNat := by
  simp [State.alloc, h]

/-- The buffer of a live image has the words its dimensions need (R24, R111). -/
theorem size_of_live {s : State} (h : s.live = true) : s.size = needOf s.width.toNat s.height.toNat := by
  unfold State.size needOf
  exact if_congr (alloc_iff_of_live h) rfl rfl

theorem size_of_not_alloc {s : State} (h : s.alloc = false) : s.size = 0 := by simp [State.size, h]

/-! ### SETPOINT and GETPOINT -/

theorem inBounds_uint32_iff (s : State) (r c : Word32) :
    inBounds s (uint32 r) (uint32 c) = true ↔ r.toNat < s.height.toNat ∧ c.toNat < s.width.toNat := by
  rw [inBounds_iff, uint32, uint32]
  omega

theorem exec_setpoint_of_live {s : State} (hh : s.halt = false) (hl : s.live = true) (r c v : Word32) :
    exec (.setpoint r c v) s = .next (setPoint (uint32 r) (uint32 c) v s).finish :=
  command_next.mpr ⟨hh, .inl ⟨hl, rfl⟩⟩

theorem exec_getpoint_of_live {s : State} (hh : s.halt = false) (hl : s.live = true) (r c : Word32) :
    exec (.getpoint r c) s = .next (getpointBody r c s) :=
  command_next.mpr ⟨hh, .inl ⟨hl, rfl⟩⟩

theorem getpointBody_inBounds {s : State} {r c : Word32} (h : inBounds s (uint32 r) (uint32 c) = true) :
    getpointBody r c s = respondOk (s.mem.lane (r.toNat * s.stride + c.toNat / 8) (c.toNat % 8)) s := by
  rw [getpointBody, getPoint_inBounds h, pixelAddr_lane]
  rfl

theorem getpointBody_outside {s : State} {r c : Word32} (h : inBounds s (uint32 r) (uint32 c) = false) :
    getpointBody r c s = raise .outOfBounds (uint32 r) (uint32 c) s := by
  rw [getpointBody, getPoint_outside h]

end Machine

open Machine

/-! ### The obligations -/

/-- Settles O16: the image's words are those of one new draw, whose number is above every number given so far. -/
theorem createMakesTheImage : Obligations.CreateMakesTheImage := by
  intro s w h n m hh ha hn
  refine ⟨_, exec_create_of_fits hh ha hn n m, answers_respondOk _ _, ⟨rfl, rfl, rfl, rfl, rfl, rfl⟩,
    rfl, hh, rfl, rfl, rfl, rfl, rfl, alloc_iff_of_live rfl, size_of_live rfl,
    fun i => Nat.lt_succ_of_le (drawNumber_le _ i), ?_⟩
  rw [size_of_live rfl]
  exact ⟨fun i => readWord_createDraw_of_lt s.mem, createDraw_draws .., fun i k hk => lane_createDraw_of_le s.mem hk, rfl⟩

/-- Settles O17: setting HALT and raising the fault are the only updates. -/
theorem createBeyondCapacityHaltsTheUnit : Obligations.CreateBeyondCapacityHaltsTheUnit := by
  intro s w h n m hh ha hn
  exact ⟨_, exec_create_of_exhausted hh ha hn n m, answers_raisePlain _ _, ⟨rfl, rfl, rfl, rfl, rfl, rfl⟩, rfl, rfl, rfl, rfl,
    rfl, rfl, rfl, rfl⟩

/-- Settles O18: RELEASE writes LIVE and the descriptor only, and without LIVE there is no buffer. -/
theorem releaseDestroysTheImage : Obligations.ReleaseDestroysTheImage := by
  intro s hh hl
  have hexec : exec .release s = .next (releaseBody s) := command_next.mpr ⟨hh, .inl ⟨hl, rfl⟩⟩
  have halloc : (releaseBody s).alloc = false := alloc_live rfl
  exact ⟨_, hexec, answers_respondOk _ _, ⟨rfl, rfl, rfl, rfl, rfl, rfl⟩, rfl, rfl, rfl, rfl, rfl, halloc,
    size_of_not_alloc halloc, hh, rfl, rfl⟩

/-- Settles O20: the one update is the write of one lane. -/
theorem setpointWritesOneLane : Obligations.SetpointWritesOneLane := by
  intro s r c v hh hl hr hc
  have hexec := exec_setpoint_of_live hh hl r c v
  have hlane : c.toNat % 8 < 8 := Nat.mod_lt _ (by decide)
  rw [setPoint_inBounds v ((inBounds_uint32_iff s r c).mpr ⟨hr, hc⟩), pixelAddr_lane] at hexec
  refine ⟨_, hexec, answers_respondOk _ _, ⟨rfl, rfl, rfl, rfl, rfl, rfl⟩, ⟨rfl, rfl, rfl, rfl, rfl, rfl⟩, rfl, ?_,
    fun i k hk hne => ?_⟩
  · exact (congrArg BitVec.toNat ((lane_writeLane _ _ _ _ _ _ hlane hlane).trans (if_pos ⟨rfl, rfl⟩))).trans (lowByte_toNat v)
  · exact (lane_writeLane _ _ _ _ _ _ hlane hk).trans (if_neg hne)

/-- Settles O21: the lane GETPOINT answers is that of the word read. -/
theorem getpointReturnsTheByte : Obligations.GetpointReturnsTheByte := by
  intro s r c hh hl hr hc
  have hexec := exec_getpoint_of_live hh hl r c
  rw [getpointBody_inBounds ((inBounds_uint32_iff s r c).mpr ⟨hr, hc⟩)] at hexec
  rw [laneExtract_readWord _ _ _ (Nat.mod_lt _ (by decide))]
  exact ⟨_, hexec, answers_respondOk _ _, ⟨rfl, rfl, rfl, rfl, rfl, rfl⟩, ⟨rfl, rfl, rfl, rfl, rfl, rfl⟩, rfl, rfl⟩

/-- Settles O22: outside the image both commands end in the same fault, raised from the state they start in. -/
theorem pixelAccessOutsideTheImageIsReported : Obligations.PixelAccessOutsideTheImageIsReported := by
  intro s r c v hh hl hout i hi
  have hin : inBounds s (uint32 r) (uint32 c) = false := by
    rw [← Bool.not_eq_true, inBounds_uint32_iff]
    omega
  have hexec : exec i s = .next (raise .outOfBounds (uint32 r) (uint32 c) s) := by
    obtain rfl | rfl := hi
    · rw [exec_setpoint_of_live hh hl, setPoint_outside v hin, finish_failed]
    · rw [exec_getpoint_of_live hh hl, getpointBody_outside hin]
  exact ⟨_, hexec, answers_raise _ _ _ _, ⟨rfl, rfl, rfl, rfl, rfl, rfl⟩, ⟨rfl, rfl, rfl, rfl, rfl, rfl⟩, rfl, rfl⟩

end Sys2Proof

/-! LINE, TRI and FILLN (42_rasterizer.md R133, R140 to R145; 30_encoding.md R81; 70_reset_and_hazards.md R197, R204): the settled
obligations about them. -/

namespace Sys2Proof

namespace Machine

/-! ### A command whose plots all succeed -/

theorem andThen_eq_going_iff {r : Run} {f : State → Run} {t : State} :
    r.andThen f = .going t ↔ ∃ u, r = .going u ∧ f u = .going t := by
  cases r <;> simp

/-- `s` with the pixels of `L` painted, the working registers at `w`, and OK offered. -/
def drawnOk (s : State) (b : Byte) (L : List (Int × Int)) (w : Work) : State :=
  respondOk 0 ((s.withMem (paint s b L s.mem)).withWork w)

theorem writesPixels_of_mem_eq {s t : State} {L : List (Int × Int)} {b : Byte} (h : t.mem = paint s b L s.mem) :
    WritesPixels L b s t where
  written p hp := by
    rw [h, lane_paint _ _ _ _ _ _ (pixelAddr_lane_lt ..)]
    exact if_pos ⟨p, hp, laneAddr_eq_iff.mpr ⟨rfl, pixelAddr_bit_eq_mul_lane ..⟩⟩
  others i k hk hne := by
    rw [h, lane_paint _ _ _ _ _ _ hk, if_neg]
    rintro ⟨p, hp, e⟩
    exact hne p hp e

/-- The run of a command whose pixels are all in bounds, with its end. -/
theorem Drew.going_finish {L : List (Int × Int)} {b : Byte} {s : State} {r : Run} (h : Drew L b s r)
    (hin : ∀ p ∈ L, inBounds s p.1 p.2 = true) : ∃ t, r = .going t ∧ r.finish = drawnOk s b L t.work := by
  obtain ⟨w, rfl⟩ := h.going hin
  exact ⟨_, rfl, rfl⟩

theorem exec_line_of_live {s : State} (hh : s.halt = false) (hl : s.live = true) (x0 y0 x1 y1 color : Word32) :
    exec (.line x0 y0 x1 y1 color) s = .next (drawLine x0.toInt y0.toInt x1.toInt y1.toInt color s).finish :=
  command_next.mpr ⟨hh, .inl ⟨hl, rfl⟩⟩

theorem exec_tri_of_live {s : State} (hh : s.halt = false) (hl : s.live = true) (x0 y0 x1 y1 x2 y2 color : Word32) :
    exec (.tri x0 y0 x1 y1 x2 y2 color) s =
      .next (drawTriangle ⟨x0.toInt, y0.toInt⟩ ⟨x1.toInt, y1.toInt⟩ ⟨x2.toInt, y2.toInt⟩ color s).finish :=
  command_next.mpr ⟨hh, .inl ⟨hl, rfl⟩⟩

theorem exec_filln_of_live {s : State} (hf : s.cfg.hasFilln = true) (hh : s.halt = false) (hl : s.live = true)
    (x y color : Word32) : exec (.filln x y color) s = .next (fillNeighbours x.toInt y.toInt color s).finish :=
  (if_pos hf).trans (command_next.mpr ⟨hh, .inl ⟨hl, rfl⟩⟩)

theorem exec_filln_of_absent {s : State} (hf : s.cfg.hasFilln = false) (hh : s.halt = false) (x y color : Word32) :
    exec (.filln x y color) s = .next (raisePlain .illegalCommand s) :=
  (if_neg (by simp [hf])).trans (illegalCommand_next.mpr ⟨hh, rfl⟩)

/-! ### The registers after a line -/

theorem update_x (w : Work) : w.update.x = w.x := by
  unfold Work.update
  split <;> rfl

theorem walk_going_work {color : Word32} {n : Nat} {s t : State} (h : walk color n s = .going t) :
    t.work = (s.work.iterate n).update := by
  induction n generalizing s with
  | zero => exact walkStep_going h
  | succ n ih =>
    obtain ⟨u, hu, ht⟩ := andThen_eq_going_iff.mp h
    rw [ih ht, withWork_work, walkStep_going hu, iterate_update_advance]
    rfl

/-- A line loads its own registers and leaves those of the other commands (R26). -/
theorem startLine_eq (w : Work) (x0 y0 x1 y1 : Int) :
    w.startLine x0 y0 x1 y1 =
      { lineStart x0 y0 x1 y1 with v0 := w.v0, v1 := w.v1, v2 := w.v2, edge := w.edge, nb := w.nb } := rfl

/-- After a line, its registers hold what R131 loaded, but for the walk's position: X is at X1 (log 7). -/
theorem drawLine_going_work {x0 y0 x1 y1 : Int} {color : Word32} {s t : State} (h : drawLine x0 y0 x1 y1 color s = .going t) :
    SameLine (s.work.startLine x0 y0 x1 y1) t.work ∧ t.work.x = (s.work.startLine x0 y0 x1 y1).x1 := by
  have hw := startLine_normalised s.work x0 y0 x1 y1
  have hwork := walk_going_work h
  rw [withWork_work] at hwork
  rw [hwork]
  refine ⟨(iterate_sameLine _ _).trans (update_sameLine _), ?_⟩
  rw [update_x, (hw.iterate_eq _).1, Int.toNat_of_nonneg hw.dxNonneg, hw.dx, add_sub_cancel]

/-! ### The registers after a triangle and after FILLN -/

theorem drawEdge_going_work {e : Fin 3} {p q : Point} {color : Word32} {s t : State} (h : drawEdge e p q color s = .going t) :
    t.work.v0 = s.work.v0 ∧ t.work.v1 = s.work.v1 ∧ t.work.v2 = s.work.v2 ∧ t.work.edge = e ∧ t.work.nb = s.work.nb :=
  have hl := (drawLine_going_work h).1
  ⟨hl.v0, hl.v1, hl.v2, hl.edge, hl.nb⟩

theorem drawTriangle_going_work {a b c : Point} {color : Word32} {s t : State} (h : drawTriangle a b c color s = .going t) :
    t.work.v0 = (sortByX a b c).v0 ∧ t.work.v1 = (sortByX a b c).v1 ∧ t.work.v2 = (sortByX a b c).v2 ∧ t.work.edge = 2 ∧
      t.work.nb = s.work.nb := by
  obtain ⟨u, hu, h⟩ := andThen_eq_going_iff.mp h
  obtain ⟨v, hv, ht⟩ := andThen_eq_going_iff.mp h
  obtain ⟨u0, u1, u2, -, un⟩ := drawEdge_going_work hu
  obtain ⟨v0, v1, v2, -, vn⟩ := drawEdge_going_work hv
  obtain ⟨t0, t1, t2, te, tn⟩ := drawEdge_going_work ht
  exact ⟨t0.trans (v0.trans u0), t1.trans (v1.trans u1), t2.trans (v2.trans u2), te, tn.trans (vn.trans un)⟩

theorem paintNeighbour_going_work {nb : Fin 4} {p : Point} {color : Word32} {s t : State}
    (h : paintNeighbour nb p color s = .going t) : t.work = { s.work with nb := nb } :=
  (plot_going_withWork h).2

theorem fillNeighbours_going_work {x y : Int} {color : Word32} {s t : State} (h : fillNeighbours x y color s = .going t) :
    t.work = { s.work with nb := 3 } := by
  obtain ⟨u, hu, h⟩ := andThen_eq_going_iff.mp h
  obtain ⟨v, hv, h⟩ := andThen_eq_going_iff.mp h
  obtain ⟨w, hw, ht⟩ := andThen_eq_going_iff.mp h
  rw [paintNeighbour_going_work ht, paintNeighbour_going_work hw, paintNeighbour_going_work hv, paintNeighbour_going_work hu]

/-! ### The outline of a triangle -/

/-- A pixel of the outline: it is on one of the edges `a b`, `b c`, `c a`. -/
def OnOutline (a b c p : Point) : Prop :=
  p ∈ linePoints a.x a.y b.x b.y ∨ p ∈ linePoints b.x b.y c.x c.y ∨ p ∈ linePoints c.x c.y a.x a.y

theorem mem_trianglePoints_iff {a b c p : Point} :
    p ∈ trianglePoints a b c ↔ OnOutline (sortByX a b c).v0 (sortByX a b c).v1 (sortByX a b c).v2 p := by
  simp only [trianglePoints, List.mem_append, or_assoc, OnOutline]

theorem mem_linePoints_comm (a b p : Point) : p ∈ linePoints a.x a.y b.x b.y ↔ p ∈ linePoints b.x b.y a.x a.y := by
  rw [lineIsSymmetricInItsEndpoints.1]

theorem OnOutline.rotate {a b c p : Point} (h : OnOutline a b c p) : OnOutline b c a p := by
  unfold OnOutline at *
  tauto

theorem OnOutline.swap {a b c p : Point} (h : OnOutline a b c p) : OnOutline b a c p := by
  unfold OnOutline at *
  rw [mem_linePoints_comm b a, mem_linePoints_comm a c, mem_linePoints_comm c b]
  tauto

/-- The outline does not depend on the order of the vertices (R141). -/
theorem OnOutline.perm {a b c a' b' c' p : Point} (h : OnOutline a b c p) (hp : [a, b, c].Perm [a', b', c']) :
    OnOutline a' b' c' p := by
  have hmem := List.mem_permutations'.mpr hp.symm
  simp only [List.permutations', List.permutations'Aux, List.flatMap_cons, List.flatMap_nil, List.map_cons, List.map_nil,
    List.cons_append, List.nil_append, List.append_nil, List.mem_cons, List.cons.injEq, List.not_mem_nil, or_false,
    and_true] at hmem
  obtain ⟨rfl, rfl, rfl⟩ | ⟨rfl, rfl, rfl⟩ | ⟨rfl, rfl, rfl⟩ | ⟨rfl, rfl, rfl⟩ | ⟨rfl, rfl, rfl⟩ | ⟨rfl, rfl, rfl⟩ := hmem
  · exact h
  · exact h.swap
  · exact h.rotate
  · exact h.swap.rotate
  · exact h.rotate.rotate
  · exact h.swap.rotate.rotate

/-- The sorted outline is that of the operands. -/
theorem mem_trianglePoints_iff_onOutline {a b c p : Point} : p ∈ trianglePoints a b c ↔ OnOutline a b c p :=
  mem_trianglePoints_iff.trans ⟨fun h => h.perm (sortByX_perm a b c), fun h => h.perm (sortByX_perm a b c).symm⟩

theorem mem_trianglePoints_congr {a b c a' b' c' : Point} (hp : [a, b, c].Perm [a', b', c']) (p : Point) :
    p ∈ trianglePoints a b c ↔ p ∈ trianglePoints a' b' c' := by
  simp only [mem_trianglePoints_iff_onOutline]
  exact ⟨fun h => h.perm hp, fun h => h.perm hp.symm⟩

/-- The outline is inside the image exactly when the three vertices are (R141). -/
theorem forall_trianglePoints_inBounds_iff (s : State) (m : AxisMap) (a b c : Point) :
    (∀ p ∈ (trianglePoints a b c).map (pixelOf m), inBounds s p.1 p.2 = true) ↔
      ∀ p ∈ [a, b, c], inBounds s (pixelOf m p).1 (pixelOf m p).2 = true := by
  have edge (a b : Point) := forall_linePoints_inBounds_iff s m a.x a.y b.x b.y
  simp only [List.forall_mem_map] at edge ⊢
  simp only [mem_trianglePoints_iff_onOutline, OnOutline, or_imp, forall_and, edge, List.forall_mem_cons]
  constructor
  · rintro ⟨⟨ha, hb⟩, ⟨-, hc⟩, -⟩
    exact ⟨ha, hb, hc, nofun⟩
  · rintro ⟨ha, hb, hc, -⟩
    exact ⟨⟨ha, hb⟩, ⟨hb, hc⟩, hc, ha⟩

/-- The pixels of LINE and of TRI, their operands read as signed (R73). -/
theorem commandPixels_line (m : AxisMap) (x0 y0 x1 y1 color : Word32) :
    commandPixels m (.line x0 y0 x1 y1 color) = (linePoints x0.toInt y0.toInt x1.toInt y1.toInt).map (pixelOf m) := rfl

theorem commandPixels_tri (m : AxisMap) (x0 y0 x1 y1 x2 y2 color : Word32) :
    commandPixels m (.tri x0 y0 x1 y1 x2 y2 color) =
      (trianglePoints ⟨x0.toInt, y0.toInt⟩ ⟨x1.toInt, y1.toInt⟩ ⟨x2.toInt, y2.toInt⟩).map (pixelOf m) := rfl

/-! ### How many plots (R144, R204) -/

theorem fits32_toInt (w : Word32) : Fits32 w.toInt := ⟨w.le_toInt, w.toInt_lt⟩

theorem linePoints_length_eq (x0 y0 x1 y1 : Int) :
    (linePoints x0 y0 x1 y1).length = max (x0 - x1).natAbs (y0 - y1).natAbs + 1 := by
  have := lineStart_dx x0 y0 x1 y1
  rw [linePoints_length]
  omega

/-- A point whose coordinates fit 32 signed bits. -/
def Point.Fits (p : Point) : Prop := Fits32 p.x ∧ Fits32 p.y

theorem point_fits_toInt (a b : Word32) : Point.Fits ⟨a.toInt, b.toInt⟩ := ⟨fits32_toInt a, fits32_toInt b⟩

theorem linePoints_length_le {p q : Point} (hp : p.Fits) (hq : q.Fits) : (linePoints p.x p.y q.x q.y).length ≤ 2 ^ 32 := by
  obtain ⟨⟨_, _⟩, _, _⟩ := hp
  obtain ⟨⟨_, _⟩, _, _⟩ := hq
  rw [linePoints_length_eq]
  omega

theorem sortByX_fits {a b c : Point} (ha : a.Fits) (hb : b.Fits) (hc : c.Fits) :
    (sortByX a b c).v0.Fits ∧ (sortByX a b c).v1.Fits ∧ (sortByX a b c).v2.Fits := by
  have h : ∀ p ∈ [(sortByX a b c).v0, (sortByX a b c).v1, (sortByX a b c).v2], p.Fits := by
    simpa [(sortByX_perm a b c).mem_iff] using ⟨ha, hb, hc⟩
  simpa using h

theorem trianglePoints_length_le {a b c : Point} (ha : a.Fits) (hb : b.Fits) (hc : c.Fits) :
    (trianglePoints a b c).length ≤ 3 * 2 ^ 32 := by
  obtain ⟨h0, h1, h2⟩ := sortByX_fits ha hb hc
  have e01 := linePoints_length_le h0 h1
  have e12 := linePoints_length_le h1 h2
  have e20 := linePoints_length_le h2 h0
  simp only [trianglePoints, List.length_append]
  omega

/-! ### LINE, TRI and FILLN inside the image -/

/-- The rasterizer point is a pixel of the image (R90, R130). -/
def Inside (s : State) (p : Point) : Prop := inBounds s (pixelOf s.cfg.axisMap p).1 (pixelOf s.cfg.axisMap p).2 = true

theorem answers_drawnOk (s : State) (b : Byte) (L : List (Int × Int)) (w : Work) : Answers (drawnOk s b L w) .ok 0 0 0 :=
  answers_respondOk _ _

theorem drawnOk_sameDescriptor (s : State) (b : Byte) (L : List (Int × Int)) (w : Work) : SameDescriptor s (drawnOk s b L w) :=
  ⟨rfl, rfl, rfl, rfl, rfl, rfl⟩

theorem sameDescriptor_of_common {s t u : State} (ht : SameDescriptor s t) (hu : SameDescriptor s u) : SameDescriptor t u :=
  ⟨hu.live.trans ht.live.symm, hu.halt.trans ht.halt.symm, hu.width.trans ht.width.symm, hu.height.trans ht.height.symm,
    hu.maxval.trans ht.maxval.symm, hu.name.trans ht.name.symm⟩

theorem drawnOk_rsp (s : State) (b : Byte) (L : List (Int × Int)) (w : Work) :
    (drawnOk s b L w).rsp = Response.pack ⟨.ok, 0, 0, 0⟩ := rfl

theorem drawnOk_rsp_eq (s s' : State) (b : Byte) (L L' : List (Int × Int)) (w w' : Work) :
    (drawnOk s b L w).rsp = (drawnOk s' b L' w').rsp := by
  rw [drawnOk_rsp, drawnOk_rsp]

theorem drawnOk_sameOutside (s : State) (b : Byte) (L : List (Int × Int)) (w : Work) : SameOutside s (drawnOk s b L w) :=
  ⟨rfl, rfl, rfl, rfl, rfl, rfl⟩

theorem drawnOk_writesPixels (s : State) (b : Byte) (L : List (Int × Int)) (w : Work) : WritesPixels L b s (drawnOk s b L w) :=
  writesPixels_of_mem_eq rfl

/-- LINE with both operand points in the image: the run, and the state it ends in. -/
theorem exec_line_inside {s : State} {x0 y0 x1 y1 : Word32} (color : Word32) (hh : s.halt = false) (hl : s.live = true)
    (ha : Inside s ⟨x0.toInt, y0.toInt⟩) (hb : Inside s ⟨x1.toInt, y1.toInt⟩) :
    ∃ t, drawLine x0.toInt y0.toInt x1.toInt y1.toInt color s = .going t ∧
      exec (.line x0 y0 x1 y1 color) s = .next (drawnOk s (lowByte color)
        ((linePoints x0.toInt y0.toInt x1.toInt y1.toInt).map (pixelOf s.cfg.axisMap)) t.work) := by
  have hin := (forall_linePoints_inBounds_iff s s.cfg.axisMap _ _ _ _).mpr ⟨ha, hb⟩
  obtain ⟨t, ht, hfin⟩ := (drew_drawLine _ _ _ _ color s).going_finish hin
  exact ⟨t, ht, by rw [exec_line_of_live hh hl, hfin]⟩

theorem drawnOk_drawnOk (s : State) (b : Byte) (L L' : List (Int × Int)) (w w' : Work) :
    drawnOk (drawnOk s b L w) b L' w' = drawnOk s b (L ++ L') w' := by
  have hpaint : paint (drawnOk s b L w) b L' (paint s b L s.mem) = paint s b (L ++ L') s.mem := by
    rw [paint_append]
    exact paint_congr (s := s) (t := drawnOk s b L w) rfl ..
  exact congrArg (fun m => respondOk 0 ((s.withMem m).withWork w')) hpaint

/-- A LINE after commands that drew with the same colour adds its points to theirs. -/
theorem exec_line_after_drawn {s : State} (L : List (Int × Int)) (w : Work) {x0 y0 x1 y1 : Word32} (color : Word32)
    (hh : s.halt = false) (hl : s.live = true)
    (ha : Inside s ⟨x0.toInt, y0.toInt⟩) (hb : Inside s ⟨x1.toInt, y1.toInt⟩) :
    ∃ w', exec (.line x0 y0 x1 y1 color) (drawnOk s (lowByte color) L w) = .next (drawnOk s (lowByte color)
      (L ++ (linePoints x0.toInt y0.toInt x1.toInt y1.toInt).map (pixelOf s.cfg.axisMap)) w') := by
  obtain ⟨t, -, h⟩ := exec_line_inside (s := drawnOk s (lowByte color) L w) color hh hl ha hb
  exact ⟨_, h.trans (congrArg _ (drawnOk_drawnOk ..))⟩

/-- TRI with its vertices in the image: the run, and the state it ends in. -/
theorem exec_tri_inside {s : State} {x0 y0 x1 y1 x2 y2 : Word32} (color : Word32) (hh : s.halt = false) (hl : s.live = true)
    (hin : ∀ p ∈ [(⟨x0.toInt, y0.toInt⟩ : Point), ⟨x1.toInt, y1.toInt⟩, ⟨x2.toInt, y2.toInt⟩], Inside s p) :
    ∃ t, drawTriangle ⟨x0.toInt, y0.toInt⟩ ⟨x1.toInt, y1.toInt⟩ ⟨x2.toInt, y2.toInt⟩ color s = .going t ∧
      exec (.tri x0 y0 x1 y1 x2 y2 color) s = .next (drawnOk s (lowByte color)
        ((trianglePoints ⟨x0.toInt, y0.toInt⟩ ⟨x1.toInt, y1.toInt⟩ ⟨x2.toInt, y2.toInt⟩).map (pixelOf s.cfg.axisMap)) t.work) := by
  obtain ⟨t, ht, hfin⟩ := (drew_drawTriangle _ _ _ color s).going_finish
    ((forall_trianglePoints_inBounds_iff s s.cfg.axisMap _ _ _).mpr hin)
  exact ⟨t, ht, by rw [exec_tri_of_live hh hl, hfin]⟩

/-- A pixel of the image that is not among those written reads as before. -/
theorem getPoint_eq_of_writesPixels {L : List (Int × Int)} {b : Byte} {s t : State} (h : WritesPixels L b s t)
    (hd : SameDescriptor s t) (hin : ∀ q ∈ L, inBounds s q.1 q.2 = true) {p : Int × Int} (hp : inBounds s p.1 p.2 = true)
    (hnot : p ∉ L) : getPoint p.1 p.2 t = getPoint p.1 p.2 s := by
  have hp' : inBounds t p.1 p.2 = true := by rwa [inBounds, hd.width, hd.height]
  have haddr : pixelAddr t p.1 p.2 = pixelAddr s p.1 p.2 := by rw [pixelAddr, hd.width]; rfl
  rw [getPoint_inBounds hp, getPoint_inBounds hp', haddr]
  refine congrArg some (h.others _ _ (pixelAddr_lane_lt ..) fun q hq e => hnot ?_)
  have hqp : pixelAddr s q.1 q.2 = pixelAddr s p.1 p.2 :=
    e.trans (laneAddr_eq_iff.mpr ⟨rfl, (pixelAddr_bit_eq_mul_lane ..).symm⟩)
  obtain ⟨hrow, hcol⟩ := (pixelAddr_inj (hin q hq) hp).mp hqp
  rwa [← show q = p from Prod.ext hrow hcol]

theorem centre_not_mem_neighbours (m : AxisMap) (x y : Int) : pixelOf m ⟨x, y⟩ ∉ (neighbourPoints x y).map (pixelOf m) := by
  cases m <;> simp [neighbourPoints, pixelOf] <;> omega

/-- A pixel next to a border pixel is outside the image (R197). -/
theorem exists_neighbour_outside {s : State} {m : AxisMap} {x y : Int}
    (hborder : let p := pixelOf m ⟨x, y⟩
      inBounds s p.1 p.2 = true ∧ (p.1 = 0 ∨ p.1 = s.height.toNat - 1 ∨ p.2 = 0 ∨ p.2 = s.width.toNat - 1)) :
    ¬ ∀ p ∈ (neighbourPoints x y).map (pixelOf m), inBounds s p.1 p.2 = true := by
  simp only [neighbourPoints, List.map_cons, List.map_nil, List.forall_mem_cons, inBounds_iff] at hborder ⊢
  cases m
  · simp only [pixelOf] at hborder ⊢
    omega
  · simp only [pixelOf] at hborder ⊢
    omega

end Machine

open Machine

/-! ### The obligations -/

/-- Settles O29: all plots of the walk are made, and the walk leaves the line's registers but its position. -/
theorem lineDrawsItsPoints : Obligations.LineDrawsItsPoints := by
  intro s x0 y0 x1 y1 color hh hl ⟨ha, hb⟩ w
  obtain ⟨t, ht, hexec⟩ := exec_line_inside color hh hl ha hb
  obtain ⟨hsame, hx⟩ := drawLine_going_work ht
  rw [startLine_eq] at hsame hx
  exact ⟨_, hexec, answers_drawnOk .., drawnOk_sameDescriptor .., drawnOk_sameOutside .., drawnOk_writesPixels ..,
    hsame.steep, hsame.x0, hsame.y0, hsame.x1, hsame.y1, hsame.dx, hsame.derr, hsame.ystep, hx, hsame.v0, hsame.v1, hsame.v2,
    hsame.edge, hsame.nb⟩

/-- Settles O30: the plots made are those before the first pixel of the list that is out of bounds. -/
theorem rasterizerStopsAtTheFirstFailingPlot : Obligations.RasterizerStopsAtTheFirstFailingPlot := by
  intro i s color hc hh hl hw pixels
  obtain ⟨t, ht, hends⟩ := exec_ends_of_running i hh
  obtain ⟨r, ⟨k, w, hk, hin, hr⟩, rfl⟩ := hends.exists_drew hc hl hw
  refine ⟨_, k, ht, hk, hin, ?_⟩
  obtain ⟨rfl, rfl⟩ | ⟨p, hp, hout, rfl⟩ := hr
  · refine ⟨?_, fun p hp => ?_, fun _ => answers_respondOk _ _, drawnOk_sameDescriptor .., drawnOk_sameOutside ..⟩
    · rw [List.take_length]
      exact drawnOk_writesPixels ..
    · simp [pixels] at hp
  · refine ⟨writesPixels_of_mem_eq rfl, fun q hq => ?_, fun hlen => ?_, ⟨rfl, rfl, rfl, rfl, rfl, rfl⟩,
      ⟨rfl, rfl, rfl, rfl, rfl, rfl⟩⟩
    · obtain rfl := Option.some.inj (hp.symm.trans hq)
      exact ⟨hout, answers_raise ..⟩
    · simp [hlen, pixels] at hp

/-- Settles O32: TRI is the three edges of its sorted vertices, which it keeps in V0 to V2. -/
theorem triDrawsTheThreeEdges : Obligations.TriDrawsTheThreeEdges := by
  intro s x0 y0 x1 y1 x2 y2 color hh hl hin v
  obtain ⟨t, ht, hexec⟩ := exec_tri_inside color hh hl hin
  have hwork := drawTriangle_going_work ht
  exact ⟨_, hexec, answers_drawnOk .., drawnOk_sameDescriptor .., drawnOk_sameOutside .., drawnOk_writesPixels .., hwork⟩

/-- Settles O33: the outline is a set of pixels that the order of the vertices does not enter, and BUF is decided by that set. -/
theorem triIsIndependentOfTheVertexOrder : Obligations.TriIsIndependentOfTheVertexOrder := by
  intro s x0 y0 x1 y1 x2 y2 color hh hl hwf ok
  obtain ⟨t, ht, hends⟩ := exec_ends_of_running (.tri x0 y0 x1 y1 x2 y2 color) hh
  obtain ⟨r, hr, rfl⟩ := hends.exists_drew rfl hl rfl
  rw [commandPixels_tri] at hr
  refine ⟨_, ht, ?_, fun hok a b c d e f hp => ?_⟩
  · rw [hr.rspStatus_finish]
    exact not_congr (forall_trianglePoints_inBounds_iff ..)
  · have hpts := hp.map fun w => (⟨w.1.toInt, w.2.toInt⟩ : Point)
    simp only [List.map_cons, List.map_nil] at hpts
    obtain ⟨u, -, hu⟩ := exec_tri_inside color hh hl fun p hmem => hok p (hpts.mem_iff.mp hmem)
    obtain ⟨t, -, hfin⟩ := hr.going_finish ((forall_trianglePoints_inBounds_iff ..).mpr hok)
    rw [hfin]
    refine ⟨_, hu, paint_ext hwf fun p => ?_, drawnOk_rsp_eq .., sameDescriptor_of_common (drawnOk_sameDescriptor ..)
      (drawnOk_sameDescriptor ..)⟩
    simp only [List.mem_map, mem_trianglePoints_congr hpts]

/-- Settles O34: the three lines paint the outline of the operands, which is that of the sorted vertices. -/
theorem triEqualsThreeLinesWhenNoneFaults : Obligations.TriEqualsThreeLinesWhenNoneFaults := by
  intro s x0 y0 x1 y1 x2 y2 color hh hl hwf hin
  obtain ⟨t, -, ht⟩ := exec_tri_inside color hh hl hin
  obtain ⟨h0, h1, h2, -⟩ := by simpa only [List.forall_mem_cons] using hin
  obtain ⟨a, -, ha⟩ := exec_line_inside color hh hl h0 h1
  obtain ⟨w, hb⟩ := exec_line_after_drawn _ a.work color hh hl h1 h2
  obtain ⟨w', hc⟩ := exec_line_after_drawn _ w color hh hl h2 h0
  refine ⟨_, _, _, _, ht, ha, hb, hc, ?_, ?_, ?_⟩
  · refine paint_ext hwf fun p => ?_
    simp only [← List.map_append, List.mem_map, mem_trianglePoints_iff_onOutline, List.mem_append, or_assoc, OnOutline]
  · exact drawnOk_rsp_eq ..
  · exact sameDescriptor_of_common (drawnOk_sameDescriptor ..) (drawnOk_sameDescriptor ..)

/-- Settles O35: the four plots are made, and none of them is at the centre. -/
theorem fillnPaintsTheFourNeighbours : Obligations.FillnPaintsTheFourNeighbours := by
  intro s x y color hh hl hf hin
  have hin' : ∀ p ∈ (neighbourPoints x.toInt y.toInt).map (pixelOf s.cfg.axisMap), inBounds s p.1 p.2 = true := by
    rwa [List.forall_mem_map]
  obtain ⟨t, ht, hfin⟩ := (drew_fillNeighbours _ _ color s).going_finish hin'
  have hexec := exec_filln_of_live hf hh hl x y color
  have hwork := fillNeighbours_going_work ht
  rw [hfin] at hexec
  refine ⟨_, hexec, answers_drawnOk .., drawnOk_sameDescriptor .., drawnOk_sameOutside .., drawnOk_writesPixels .., ?_,
    hwork⟩
  rintro p rfl hp
  exact getPoint_eq_of_writesPixels (drawnOk_writesPixels ..) (drawnOk_sameDescriptor ..) hin' hp (centre_not_mem_neighbours _ _ _)

/-- Settles O36: one of the neighbours of a border pixel is out of bounds; without FILLN the fault is the only update. -/
theorem fillnAtTheBorderFaults : Obligations.FillnAtTheBorderFaults := by
  refine ⟨fun s x y color hh hl hf hborder => ?_, fun s x y color hh hf => ?_⟩
  · obtain ⟨t, ht, hends⟩ := exec_ends_of_running (.filln x y color) hh
    obtain ⟨r, hr, rfl⟩ := hends.exists_drew rfl hl hf
    exact ⟨_, ht, hr.rspStatus_finish.mpr (exists_neighbour_outside hborder)⟩
  · exact ⟨_, exec_filln_of_absent hf hh x y color, answers_raisePlain _ _, ⟨rfl, rfl, rfl, rfl, rfl, rfl⟩,
      ⟨rfl, rfl, rfl, rfl, rfl, rfl⟩, rfl, rfl⟩

/-- Settles O37: a line makes one plot more than the longer of its two distances. -/
theorem plotCountsAreBounded : Obligations.PlotCountsAreBounded := by
  intro m i
  refine ⟨?_, ?_, ?_, ?_⟩
  · cases i with
    | line a b c d v =>
      have := linePoints_length_le (point_fits_toInt a b) (point_fits_toInt c d)
      rw [commandPixels_line, List.length_map]
      exact this.trans (by decide)
    | tri a b c d e f v =>
      rw [commandPixels_tri, List.length_map]
      exact trianglePoints_length_le (point_fits_toInt a b) (point_fits_toInt c d) (point_fits_toInt e f)
    | create | release | setpoint | getpoint | filln => simp [commandPixels, neighbourPoints]
  · rintro a b c d v rfl
    rw [commandPixels_line, List.length_map]
    have hle := linePoints_length_le (point_fits_toInt a b) (point_fits_toInt c d)
    exact ⟨linePoints_length_eq .., hle⟩
  · rintro x y v rfl
    rfl
  · cases i with
    | line | tri | filln => nofun
    | create | release | setpoint | getpoint => simp [commandPixels]

end Sys2Proof

/-! What no command's effect depends on: MAXVAL and NAME (10_state.md R23; 70_reset_and_hazards.md R198), and what the working
registers, the latch and the response held (10_state.md R20, R26): the settled obligations about them. -/

namespace Sys2Proof

namespace Machine

/-! ### A command as its prologue and its own rule (R110) -/

/-- The column of the lifecycle table that a command proceeds in (R110). -/
def needsOf : Instr → Needs
  | .create _ _ _ _ => .noBuffer
  | .release | .setpoint _ _ _ | .getpoint _ _ | .line _ _ _ _ _ | .tri _ _ _ _ _ _ _ | .filln _ _ _ => .image

/-- A command's own rule: what it does once the prologue lets it proceed. -/
def ownRule : Instr → State → State
  | .create w h n m => createBody w h n m
  | .release => releaseBody
  | .setpoint r c v => setpointBody r c v
  | .getpoint r c => getpointBody r c
  | .line x0 y0 x1 y1 color => lineBody x0 y0 x1 y1 color
  | .tri x0 y0 x1 y1 x2 y2 color => triBody x0 y0 x1 y1 x2 y2 color
  | .filln x y color => fillnBody x y color

theorem exec_of_wellFormed {i : Instr} {s : State} (hw : i.wellFormed s.cfg = true) :
    exec i s = command (needsOf i) (ownRule i) s := by
  cases i with
  | filln => exact if_pos hw
  | _ => rfl

theorem exec_of_not_wellFormed {i : Instr} {s : State} (hw : i.wellFormed s.cfg = false) : exec i s = illegalCommand s := by
  cases i with
  | filln => exact if_neg (by simpa [Instr.wellFormed] using hw)
  | _ => cases hw

/-- A command ends in its own rule or in a fault of the prologue. -/
theorem exec_next_cases {i : Instr} {s t : State} (h : exec i s = .next t) :
    t = ownRule i s ∨ ∃ f, t = raisePlain f s := by
  cases hw : i.wellFormed s.cfg
  · rw [exec_of_not_wellFormed hw] at h
    exact .inr ⟨_, (illegalCommand_next.mp h).2⟩
  · rw [exec_of_wellFormed hw] at h
    obtain ⟨-, ⟨-, ht⟩ | ⟨-, ht⟩⟩ := command_next.mp h
    · exact .inl ht
    · exact .inr ⟨_, ht⟩

/-- Two states that the prologue does not tell apart end in related states, when the faults raised there and the command's own rule
do. -/
theorem exec_rel {R : State → State → Prop} {i : Instr} (s s' : State) {t : State} (hcfg : s'.cfg = s.cfg) (hh : s'.halt = s.halt)
    (hl : ∀ n, lifecycleAllows n s' = lifecycleAllows n s) (hraise : ∀ f, R (raisePlain f s') (raisePlain f s))
    (hrule : R (ownRule i s') (ownRule i s)) (h : exec i s = .next t) : ∃ u, exec i s' = .next u ∧ R u t := by
  cases hw : i.wellFormed s.cfg
  · rw [exec_of_not_wellFormed hw] at h
    obtain ⟨hrun, rfl⟩ := illegalCommand_next.mp h
    rw [exec_of_not_wellFormed (hcfg ▸ hw)]
    exact ⟨_, illegalCommand_next.mpr ⟨hh.trans hrun, rfl⟩, hraise _⟩
  · rw [exec_of_wellFormed hw] at h
    rw [exec_of_wellFormed (hcfg ▸ hw)]
    obtain ⟨hrun, ⟨ha, rfl⟩ | ⟨ha, rfl⟩⟩ := command_next.mp h
    · exact ⟨_, command_next.mpr ⟨hh.trans hrun, .inl ⟨(hl _).trans ha, rfl⟩⟩, hrule⟩
    · exact ⟨_, command_next.mpr ⟨hh.trans hrun, .inr ⟨(hl _).trans ha, rfl⟩⟩, hraise _⟩

/-! ### Other values in MAXVAL and NAME -/

/-- Replace MAXVAL and NAME. -/
def State.withTags (s : State) (maxval name : Word32) : State := { s with maxval := maxval, name := name }

/-- Two states that agree on everything but MAXVAL and NAME. -/
def SameButTags (u t : State) : Prop := u.withTags 0 0 = t.withTags 0 0

theorem SameButTags.field_eq {α : Type} {u t : State} (h : SameButTags u t) (field : State → α)
    (hfield : ∀ s : State, field (s.withTags 0 0) = field s) : field u = field t := by
  rw [← hfield u, h, hfield t]

/-- Apply `g` to the state a run has reached. -/
def Run.map (g : State → State) : Run → Run
  | .going s => .going (g s)
  | .failed row col s => .failed row col (g s)

/-- A run that commutes with replacing MAXVAL and NAME. -/
structure TagFree (f : State → Run) : Prop where
  map_eq : ∀ (a b : Word32) (s : State), f (s.withTags a b) = (f s).map (·.withTags a b)

theorem tagFree_setPoint (r c : Int) (v : Word32) : TagFree (setPoint r c v) where
  map_eq a b s := by
    cases h : inBounds s r c
    · rw [setPoint_outside v h, setPoint_outside (s := s.withTags a b) v h]
      rfl
    · rw [setPoint_inBounds v h, setPoint_inBounds (s := s.withTags a b) v h]
      rfl

theorem tagFree_plot (p : Point) (color : Word32) : TagFree (plot p color) where
  map_eq a b s := (tagFree_setPoint _ _ color).map_eq a b s

theorem TagFree.andThen {f g : State → Run} (hf : TagFree f) (hg : TagFree g) : TagFree fun s => (f s).andThen g where
  map_eq a b s := by
    rw [hf.map_eq a b s]
    cases f s with
    | going t => exact hg.map_eq a b t
    | failed row col t => rfl

/-- Loading the working registers, from what they hold, does not touch MAXVAL and NAME. -/
theorem TagFree.withWork {f : State → Run} (hf : TagFree f) (k : Work → Work) :
    TagFree fun s => f (s.withWork (k s.work)) where
  map_eq a b s := hf.map_eq a b (s.withWork (k s.work))

theorem tagFree_walkStep (color : Word32) : TagFree (walkStep color) where
  map_eq a b s := by
    have hupdate : TagFree fun s => .going (s.withWork s.work.update) := ⟨fun _ _ _ => rfl⟩
    exact ((tagFree_plot s.work.point color).andThen hupdate).map_eq a b s

theorem tagFree_walk (color : Word32) (n : Nat) : TagFree (walk color n) := by
  induction n with
  | zero => exact tagFree_walkStep color
  | succ n ih => exact (tagFree_walkStep color).andThen (ih.withWork Work.advance)

theorem tagFree_drawLine (x0 y0 x1 y1 : Int) (color : Word32) : TagFree (drawLine x0 y0 x1 y1 color) where
  map_eq a b s := (tagFree_walk color _).map_eq a b (s.withWork (s.work.startLine x0 y0 x1 y1))

theorem tagFree_drawEdge (e : Fin 3) (p q : Point) (color : Word32) : TagFree (drawEdge e p q color) :=
  (tagFree_drawLine ..).withWork fun w => { w with edge := e }

theorem tagFree_drawTriangle (a b c : Point) (color : Word32) : TagFree (drawTriangle a b c color) :=
  ((tagFree_drawEdge 0 _ _ color).withWork fun w => { w with v0 := _, v1 := _, v2 := _ }).andThen <|
    (tagFree_drawEdge 1 _ _ color).andThen (tagFree_drawEdge 2 _ _ color)

theorem tagFree_paintNeighbour (nb : Fin 4) (p : Point) (color : Word32) : TagFree (paintNeighbour nb p color) :=
  (tagFree_plot p color).withWork fun w => { w with nb := nb }

theorem tagFree_fillNeighbours (x y : Int) (color : Word32) : TagFree (fillNeighbours x y color) :=
  (tagFree_paintNeighbour 0 _ color).andThen <| (tagFree_paintNeighbour 1 _ color).andThen <|
    (tagFree_paintNeighbour 2 _ color).andThen (tagFree_paintNeighbour 3 _ color)

theorem TagFree.finish {f : State → Run} (hf : TagFree f) (a b : Word32) (s : State) :
    SameButTags (f (s.withTags a b)).finish (f s).finish := by
  rw [hf.map_eq a b s]
  cases f s <;> rfl

theorem ownRule_withTags (i : Instr) (a b : Word32) (s : State) :
    SameButTags (ownRule i (s.withTags a b)) (ownRule i s) := by
  cases i with
  | create w h n m =>
    by_cases hn : s.cfg.memWords < needOf w.toNat h.toNat
    · rw [ownRule, createBody_of_exhausted hn, createBody_of_exhausted (s := s.withTags a b) hn]
      rfl
    · rw [ownRule, createBody_of_fits (not_lt.mp hn), createBody_of_fits (s := s.withTags a b) (not_lt.mp hn)]
      rfl
  | release => rfl
  | setpoint => exact (tagFree_setPoint ..).finish a b s
  | getpoint r c =>
    cases h : inBounds s (uint32 r) (uint32 c)
    · rw [ownRule, getpointBody_outside h, getpointBody_outside (s := s.withTags a b) h]
      rfl
    · rw [ownRule, getpointBody_inBounds h, getpointBody_inBounds (s := s.withTags a b) h]
      rfl
  | line => exact (tagFree_drawLine ..).finish a b s
  | tri => exact (tagFree_drawTriangle ..).finish a b s
  | filln => exact (tagFree_fillNeighbours ..).finish a b s

/-! ### Other values in the working registers, the latch and the response -/

/-- Replace the working registers, the latch and the response. -/
def State.withScratch (s : State) (w : Work) (P : Packet) (Q : RspPacket) : State := { s with work := w, cmd := P, rsp := Q }

/-- What a command answers and does to the image is the same in both states. -/
structure SameEffect (u t : State) : Prop where
  rsp : u.rsp = t.rsp
  mem : u.mem = t.mem
  phase : u.phase = t.phase
  descriptor : SameDescriptor t u

/-- The answer of a command that plots `L`: OK, or OutOfBounds at the first pixel that is out of bounds (R145). -/
def plotAnswer (s : State) (L : List (Int × Int)) : Response :=
  match L.find? fun p => !inBounds s p.1 p.2 with
  | none => ⟨.ok, 0, 0, 0⟩
  | some p => ⟨.outOfBounds, 0, low32 p.1, low32 p.2⟩

/-- What a run of plots answers and writes is a function of the image and the list of pixels alone. -/
theorem Drew.finish_eq_plotAnswer {L : List (Int × Int)} {b : Byte} {s : State} {r : Run} (h : Drew L b s r) :
    ∃ w, r.finish = respond (plotAnswer s L)
      ((s.withMem (paint s b (L.takeWhile fun p => inBounds s p.1 p.2) s.mem)).withWork w) := by
  obtain ⟨k, w, -, hin, ⟨rfl, rfl⟩ | ⟨p, hp, hout, rfl⟩⟩ := h
  · rw [List.take_length] at hin
    have hfind : (L.find? fun p => !inBounds s p.1 p.2) = none := by simpa using hin
    exact ⟨w, by rw [List.takeWhile_eq_self_iff.mpr hin, plotAnswer, hfind]; rfl⟩
  · obtain ⟨rest, hrest⟩ : ∃ rest, L.drop k = p :: rest := by
      obtain ⟨hk, rfl⟩ := List.getElem?_eq_some_iff.mp hp
      exact ⟨_, List.drop_eq_getElem_cons hk⟩
    have hsplit : L = L.take k ++ p :: rest := by rw [← hrest, List.take_append_drop]
    have hwhile : (L.takeWhile fun p => inBounds s p.1 p.2) = L.take k := by
      conv_lhs => rw [hsplit]
      rw [List.takeWhile_append_of_pos hin]
      simp [hout]
    have hfind : (L.find? fun p => !inBounds s p.1 p.2) = some p := by
      rw [hsplit, List.find?_append, List.find?_eq_none.mpr (by simpa using hin)]
      simp [hout]
    exact ⟨w, by rw [hwhile, plotAnswer, hfind]; rfl⟩

theorem Drew.sameEffect {L : List (Int × Int)} {b : Byte} {s : State} {r r' : Run}
    (h : Drew L b s r) {w : Work} {P : Packet} {Q : RspPacket} (h' : Drew L b (s.withScratch w P Q) r') : SameEffect r'.finish r.finish := by
  obtain ⟨v, e⟩ := h.finish_eq_plotAnswer
  obtain ⟨v', e'⟩ := h'.finish_eq_plotAnswer
  rw [e, e']
  exact ⟨rfl, paint_congr (s := s) (t := s.withScratch w P Q) rfl .., rfl, ⟨rfl, rfl, rfl, rfl, rfl, rfl⟩⟩

theorem ownRule_withScratch (i : Instr) (w : Work) (P : Packet) (Q : RspPacket) (s : State) :
    SameEffect (ownRule i (s.withScratch w P Q)) (ownRule i s) := by
  cases i with
  | create wd h n m =>
    by_cases hn : s.cfg.memWords < needOf wd.toNat h.toNat
    · rw [ownRule, createBody_of_exhausted hn, createBody_of_exhausted (s := s.withScratch w P Q) hn]
      exact ⟨rfl, rfl, rfl, ⟨rfl, rfl, rfl, rfl, rfl, rfl⟩⟩
    · rw [ownRule, createBody_of_fits (not_lt.mp hn), createBody_of_fits (s := s.withScratch w P Q) (not_lt.mp hn)]
      exact ⟨rfl, rfl, rfl, ⟨rfl, rfl, rfl, rfl, rfl, rfl⟩⟩
  | release => exact ⟨rfl, rfl, rfl, ⟨rfl, rfl, rfl, rfl, rfl, rfl⟩⟩
  | setpoint r c v => exact (drew_setPoint _ _ v s).sameEffect (drew_setPoint _ _ v (s.withScratch w P Q))
  | getpoint r c =>
    cases h : inBounds s (uint32 r) (uint32 c)
    · rw [ownRule, getpointBody_outside h, getpointBody_outside (s := s.withScratch w P Q) h]
      exact ⟨rfl, rfl, rfl, ⟨rfl, rfl, rfl, rfl, rfl, rfl⟩⟩
    · rw [ownRule, getpointBody_inBounds h, getpointBody_inBounds (s := s.withScratch w P Q) h]
      exact ⟨rfl, rfl, rfl, ⟨rfl, rfl, rfl, rfl, rfl, rfl⟩⟩
  | line => exact (drew_drawLine _ _ _ _ _ s).sameEffect (drew_drawLine _ _ _ _ _ (s.withScratch w P Q))
  | tri => exact (drew_drawTriangle _ _ _ _ s).sameEffect (drew_drawTriangle _ _ _ _ (s.withScratch w P Q))
  | filln => exact (drew_fillNeighbours _ _ _ s).sameEffect (drew_fillNeighbours _ _ _ (s.withScratch w P Q))

end Machine

open Machine

/-! ### The obligations -/

/-- Settles O45: every run of plots commutes with replacing the two registers, and no rule branches on them. -/
theorem maxvalAndNameAreNeverConsulted : Obligations.MaxvalAndNameAreNeverConsulted := by
  intro i s t a b h
  obtain ⟨u, hu, e⟩ := exec_rel (R := SameButTags) s (s.withTags a b) rfl rfl (fun n => by cases n <;> rfl) (fun _ => rfl)
    (ownRule_withTags i a b s) h
  exact ⟨u, hu, e.field_eq State.rsp fun _ => rfl, e.field_eq State.mem fun _ => rfl, e.field_eq State.live fun _ => rfl,
    e.field_eq State.halt fun _ => rfl, e.field_eq State.width fun _ => rfl, e.field_eq State.height fun _ => rfl,
    e.field_eq State.work fun _ => rfl, e.field_eq State.phase fun _ => rfl⟩

/-- Settles O46: what a run of plots answers and writes is a function of the image and the list of pixels alone. -/
theorem workingStateIsWrittenBeforeRead : Obligations.WorkingStateIsWrittenBeforeRead := by
  intro i s t w P Q h
  obtain ⟨u, hu, e⟩ := exec_rel (R := SameEffect) s (s.withScratch w P Q) rfl rfl (fun n => by cases n <;> rfl)
    (fun _ => ⟨rfl, rfl, rfl, ⟨rfl, rfl, rfl, rfl, rfl, rfl⟩⟩) (ownRule_withScratch i w P Q s) h
  exact ⟨u, hu, e.rsp, e.mem, e.phase, e.descriptor⟩

end Sys2Proof

/-! The invariants of the image and the ranges of the working registers: at reset, and kept by every step (10_state.md sections 5, 8
and 9; 42_rasterizer.md R138): the settled obligations about them. -/

namespace Sys2Proof

namespace Machine

/-! ### A step that accepts a packet -/

theorem step_of_decode {s : State} {P : Packet} {i : Instr} (ha : s.accepts = some P) (hd : decode s.cfg P = .ok i) :
    step s = exec i (accept P s) := by
  simp only [step, ha, hd]

/-- A property of the state is kept by a step when the commands, the fault of an illegal packet and each move of the host keep it. -/
theorem step_preserves {p : State → Prop} {s t : State} (h : step s = .next t) (hs : p s)
    (hexec : ∀ P i, s.accepts = some P → exec i (accept P s) = .next t → p t)
    (hillegal : ∀ P, s.accepts = some P → p (raisePlain .illegalCommand (accept P s)))
    (hhost : ∀ moves, p { s with host := moves })
    (hreset : ∀ moves, p (applyReset { s with host := moves }))
    (htake : ∀ moves, s.phase = .resp → p (takeResponse { s with host := moves }))
    (hpresent : ∀ P moves, p { s with chan := some P, host := moves }) : p t := by
  obtain ⟨P, i, ha, hd, -⟩ | ⟨P, e, ha, -, rfl⟩ | ⟨-, hturn⟩ := step_cases h
  · exact hexec P i ha (step_of_decode ha hd ▸ h)
  · exact hillegal P ha
  · obtain rfl | ⟨m, -, rfl⟩ | ⟨m, -, hp, rfl⟩ | ⟨m, -, -, rfl⟩ | ⟨P, m, -, -, rfl⟩ := hostTurn_cases hturn
    · exact hs
    · exact hreset m
    · exact htake m hp
    · exact hhost m
    · exact hpresent P m

/-! ### The image -/

theorem redraw_cells_subset (m : Memory) (n : Nat) : (m.redraw n).cells ⊆ m.cells := List.filter_sublist.subset

theorem createDraw_cells_subset (m : Memory) (n : Nat) : (m.createDraw n).cells ⊆ m.cells := by
  obtain rfl | h := n.eq_zero_or_pos
  · exact List.Subset.refl _
  · rw [createDraw_of_pos m h]
    exact redraw_cells_subset m n

theorem createDraw_wf {m : Memory} (n : Nat) (h : m.wf) : (m.createDraw n).wf := by
  obtain rfl | hpos := n.eq_zero_or_pos
  · exact h
  · rw [createDraw_of_pos m hpos]
    exact redraw_wf n h

/-- A state without an image meets the invariants of the image (R29 (a), (b)). -/
theorem inv_of_noImage {t : State} (hl : t.live = false) (hd : t.width = 0 ∧ t.height = 0 ∧ t.maxval = 0 ∧ t.name = 0)
    (hp : t.phase ≠ .busy) (hwf : t.mem.wf) (hin : ∀ c ∈ t.mem.cells, c.1 < 8 * t.cfg.memWords) : Inv t where
  noImage _ := hd
  fits ha := by rw [alloc_live hl] at ha; cases ha
  notBusy := hp
  canonical := hwf
  inside := hin

/-- The words of the pixels that a command may write are words of BUF (R98). -/
theorem pixelAddr_word_lt_memWords {s : State} {r c : Int} (hi : Inv s) (h : inBounds s r c = true) :
    (pixelAddr s r c).word < s.cfg.memWords :=
  have ⟨_, hlt, hle, _⟩ := indexStaysInsideTheBuffer s r c hi h
  hlt.trans_le hle

theorem needOf_pos {w h : Nat} (hpos : 0 < w * h) : 0 < needOf w h := by
  rw [needOf, if_pos hpos]
  exact Nat.mul_pos (Nat.pos_of_mul_pos_left hpos) (Nat.succ_pos _)

/-- Every way a command ends keeps the invariants. Of the state it starts in, BUSY, they hold but for PHASE. -/
theorem Ends.inv {i : Instr} {s t : State} {P : Packet} (h : Ends i (accept P s) t) (hi : Inv s) : Inv t := by
  cases h with
  | created w h n m _ ha hn =>
    have hsize {u : State} (hl : u.live = true) (hu : u.alloc = true) : 1 ≤ u.size := by
      rw [size_of_live hl]
      exact needOf_pos ((alloc_iff_of_live hl).mp hu)
    exact ⟨nofun, fun ha => ⟨hsize rfl ha, (size_of_live rfl).trans_le hn⟩, nofun, createDraw_wf _ hi.canonical,
      fun c hc => hi.inside c (createDraw_cells_subset _ _ hc)⟩
  | released => exact inv_of_noImage rfl ⟨rfl, rfl, rfl, rfl⟩ nofun hi.canonical hi.inside
  | drew _ _ _ r _ _ _ hr =>
    obtain ⟨q, k, w, e, hin⟩ := hr.finish_eq
    have hword : ∀ p ∈ (commandPixels s.cfg.axisMap i).take k, (pixelAddr s p.1 p.2).word < s.cfg.memWords :=
      fun p hp => pixelAddr_word_lt_memWords hi (hin p hp)
    rw [e]
    exact ⟨hi.noImage, hi.fits, nofun, paint_wf hi.canonical, paint_inside hword hi.inside⟩
  | exhausted | invalid | absent | got | missed => exact ⟨hi.noImage, hi.fits, nofun, hi.canonical, hi.inside⟩

theorem inv_applyReset {s : State} (hi : Inv s) (moves : List HostMove) : Inv (applyReset { s with host := moves }) :=
  inv_of_noImage rfl ⟨rfl, rfl, rfl, rfl⟩ nofun (redraw_wf _ hi.canonical)
    fun c hc => hi.inside c (redraw_cells_subset _ _ hc)

/-! ### The working registers -/

theorem Point.Fits.swapIf {p : Point} (h : p.Fits) (steep : Bool) : (p.swapIf steep).Fits := by
  cases steep
  · exact h
  · exact ⟨h.2, h.1⟩

/-- V0 to V2 fit 32 signed bits (R26). -/
def VerticesFit (w : Work) : Prop := w.v0.Fits ∧ w.v1.Fits ∧ w.v2.Fits

theorem verticesFit_of_workFits {w : Work} (h : WorkFits w) : VerticesFit w :=
  have ⟨h0x, h0y, h1x, h1y, h2x, h2y⟩ := h.vertices
  ⟨⟨h0x, h0y⟩, ⟨h1x, h1y⟩, ⟨h2x, h2y⟩⟩

/-- The ends of the line in the registers fit 32 signed bits (R26). -/
def EndsFit (w : Work) : Prop := (Fits32 w.x0 ∧ Fits32 w.y0) ∧ Fits32 w.x1 ∧ Fits32 w.y1

theorem endsFit_startLine {x0 y0 x1 y1 : Int} (w : Work) (hp : Point.Fits ⟨x0, y0⟩) (hq : Point.Fits ⟨x1, y1⟩) :
    EndsFit (w.startLine x0 y0 x1 y1) := by
  rw [startLine_eq_load]
  split
  · exact ⟨hq.swapIf _, hp.swapIf _⟩
  · exact ⟨hp.swapIf _, hq.swapIf _⟩

/-- What the walk moves: ERR, X and Y in their ranges (R26, R134 (d); log 7, log 8). -/
structure PositionFits (u : Work) : Prop where
  err : (u.dx = 0 ∧ u.err = 0) ∨ (0 < u.dx ∧ -u.dx + 1 ≤ u.err ∧ u.err ≤ u.dx)
  x : u.x0 ≤ u.x ∧ u.x ≤ u.x1
  y : -2 ^ 31 - 1 ≤ u.y ∧ u.y ≤ 2 ^ 31

/-- The registers of a line in the middle of its walk: those the walk leaves alone are as R131 loaded them. -/
theorem workFits_of_sameLine {w u : Work} (hw : Normalised w) (hends : EndsFit w) (hv : VerticesFit w) (hl : SameLine w u)
    (hpos : PositionFits u) : WorkFits u := by
  obtain ⟨⟨hx0, hy0⟩, hx1, hy1⟩ := hends
  obtain ⟨⟨h0x, h0y⟩, ⟨h1x, h1y⟩, h2x, h2y⟩ := hv
  have hdx := hw.dx
  have hnonneg := hw.dxNonneg
  have hderr := hw.derr
  have hshallow := hw.shallow
  exact
    { ends := by rw [hl.x0, hl.y0, hl.x1, hl.y1]; exact ⟨hx0, hy0, hx1, hy1⟩
      dx := by rw [hl.dx, hl.x0, hl.x1]; omega
      derr := by rw [hl.derr, hl.dx, hl.y0, hl.y1]; omega
      ystep := by rw [hl.ystep, hl.y0, hl.y1]; exact hw.ystep
      err := hpos.err
      x := hpos.x
      y := hpos.y
      vertices := by rw [hl.v0, hl.v1, hl.v2]; exact ⟨h0x, h0y, h1x, h1y, h2x, h2y⟩ }

theorem sgn_bounds (a : Int) : -1 ≤ sgn a ∧ sgn a ≤ 1 := by
  unfold sgn
  split_ifs <;> omega

section Walk

variable {w : Work} (hw : Normalised w)
include hw

theorem Normalised.iterate_x {k : Nat} (hk : (k : Int) ≤ w.dx) : w.x0 ≤ (w.iterate k).x ∧ (w.iterate k).x ≤ w.x1 := by
  rw [(hw.iterate_eq k).1]
  have := hw.dx
  omega

/-- The minor coordinate stays between the two ends while plots are to come (R134). -/
theorem Normalised.iterate_y {k : Nat} (hk : (k : Int) ≤ w.dx) :
    min w.y0 w.y1 ≤ (w.iterate k).y ∧ (w.iterate k).y ≤ max w.y0 w.y1 := by
  rw [(hw.iterate_eq k).2.1, hw.ystep]
  have ⟨h0, hle⟩ := hw.offset_mem_Icc (Int.natCast_nonneg k) hk
  exact add_sgn_mul_mem_Icc _ _ h0 hle

/-- One update moves the minor coordinate by at most one. -/
theorem Normalised.update_iterate_y (k : Nat) :
    (w.iterate k).y - 1 ≤ (w.iterate k).update.y ∧ (w.iterate k).update.y ≤ (w.iterate k).y + 1 := by
  have hy : (w.iterate k).update.y = (w.iterate k).y ∨ (w.iterate k).update.y = (w.iterate k).y + w.ystep := by
    rw [← (iterate_sameLine w k).ystep, Work.update]
    split
    · exact .inr rfl
    · exact .inl rfl
  have := sgn_bounds (w.y1 - w.y0)
  rw [← hw.ystep] at this
  omega

theorem Normalised.err_range (k : Nat) :
    (w.dx = 0 ∧ (w.iterate k).err = 0) ∨ (0 < w.dx ∧ -w.dx + 1 ≤ (w.iterate k).err ∧ (w.iterate k).err ≤ w.dx) := by
  have := hw.iterate_err_mem_Ioc k
  have := hw.dxNonneg
  omega

variable (hends : EndsFit w) (hv : VerticesFit w) {k : Nat} (hk : (k : Int) ≤ w.dx)
include hends hv hk

theorem Normalised.workFits_iterate : WorkFits (w.iterate k) := by
  have hl := iterate_sameLine w k
  refine workFits_of_sameLine hw hends hv hl ⟨?_, ?_, ?_⟩
  · rw [hl.dx]; exact hw.err_range k
  · rw [hl.x0, hl.x1]; exact hw.iterate_x hk
  · have := hw.iterate_y hk
    obtain ⟨⟨-, hy0⟩, -, hy1⟩ := hends
    omega

/-- After an update, before the next iteration: X has not moved, and Y may be one step further (log 7). -/
theorem Normalised.workFits_update_iterate : WorkFits (w.iterate k).update := by
  have hl := (iterate_sameLine w k).trans (update_sameLine _)
  refine workFits_of_sameLine hw hends hv hl ⟨?_, ?_, ?_⟩
  · rw [hl.dx]; exact hw.err_range (k + 1)
  · rw [hl.x0, hl.x1, update_x]; exact hw.iterate_x hk
  · have := hw.iterate_y hk
    have := hw.update_iterate_y k
    obtain ⟨⟨-, hy0⟩, -, hy1⟩ := hends
    omega

end Walk

/-! ### The rasterizer's runs -/

/-- A property of the state where a sequence of runs has come to: shown where the first stops, and for what follows it. -/
theorem andThen_state {p : State → Prop} {r : Run} {f : State → Run} (hr : p r.state)
    (hf : ∀ t, r = .going t → p t → p (f t).state) : p (r.andThen f).state := by
  cases r with
  | going t => exact hf t rfl hr
  | failed row col t => exact hr

theorem plot_state_work (p : Point) (color : Word32) (s : State) : (plot p color s).state.work = s.work :=
  setPoint_state_work ..

theorem walkStep_state_work (color : Word32) (s : State) :
    (walkStep color s).state.work = s.work ∨ (walkStep color s).state.work = s.work.update := by
  have hplot := plot_state_work s.work.point color s
  unfold walkStep
  cases h : plot s.work.point color s with
  | going t =>
    rw [h] at hplot
    exact .inr (congrArg Work.update hplot)
  | failed row col t =>
    rw [h] at hplot
    exact .inl hplot

/-- A walk stops before or after the update of one of its iterations. -/
theorem walk_state_work (color : Word32) (n : Nat) (s : State) :
    ∃ k ≤ n, (walk color n s).state.work = s.work.iterate k ∨ (walk color n s).state.work = (s.work.iterate k).update := by
  induction n generalizing s with
  | zero => exact ⟨0, le_rfl, walkStep_state_work color s⟩
  | succ n ih =>
    have hstep := walkStep_state_work color s
    rw [walk]
    cases h : walkStep color s with
    | going t =>
      obtain ⟨k, hk, hwork⟩ := ih (t.withWork t.work.advance)
      rw [andThen_going, walkStep_going h]
      rw [withWork_work, walkStep_going h, iterate_update_advance] at hwork
      exact ⟨k + 1, Nat.succ_le_succ hk, hwork⟩
    | failed row col t =>
      rw [h] at hstep
      exact ⟨0, Nat.zero_le _, hstep⟩

theorem workFits_drawLine {x0 y0 x1 y1 : Int} (color : Word32) {s : State} (hv : VerticesFit s.work)
    (hp : Point.Fits ⟨x0, y0⟩) (hq : Point.Fits ⟨x1, y1⟩) : WorkFits (drawLine x0 y0 x1 y1 color s).state.work := by
  have hw := startLine_normalised s.work x0 y0 x1 y1
  have hends := endsFit_startLine s.work hp hq
  obtain ⟨k, hk, hwork⟩ := walk_state_work color (s.work.startLine x0 y0 x1 y1).dx.toNat
    (s.withWork (s.work.startLine x0 y0 x1 y1))
  have hle : (k : Int) ≤ (s.work.startLine x0 y0 x1 y1).dx := by
    have := hw.dxNonneg
    omega
  rw [withWork_work] at hwork
  obtain h | h := hwork
  · exact h ▸ hw.workFits_iterate hends hv hle
  · exact h ▸ hw.workFits_update_iterate hends hv hle

theorem workFits_drawTriangle {a b c : Point} (color : Word32) (s : State) (ha : a.Fits) (hb : b.Fits) (hc : c.Fits) :
    WorkFits (drawTriangle a b c color s).state.work := by
  have ⟨h0, h1, h2⟩ := sortByX_fits ha hb hc
  have hedge (e : Fin 3) {p q : Point} (hp : p.Fits) (hq : q.Fits) {t : State} (hv : VerticesFit t.work) :
      WorkFits (drawEdge e p q color t).state.work :=
    workFits_drawLine color (s := t.withWork { t.work with edge := e }) hv hp hq
  refine andThen_state (p := fun t => WorkFits t.work) (hedge 0 h0 h1 ⟨h0, h1, h2⟩) fun t _ ht => ?_
  refine andThen_state (p := fun t => WorkFits t.work) (hedge 1 h1 h2 (verticesFit_of_workFits ht)) fun u _ hu => ?_
  exact hedge 2 h2 h0 (verticesFit_of_workFits hu)

theorem workFits_paintNeighbour (nb : Fin 4) (p : Point) (color : Word32) {s : State} (h : WorkFits s.work) :
    WorkFits (paintNeighbour nb p color s).state.work := by
  rw [paintNeighbour, plot_state_work]
  exact ⟨h.ends, h.dx, h.derr, h.ystep, h.err, h.x, h.y, h.vertices⟩

theorem workFits_fillNeighbours (x y : Int) (color : Word32) {s : State} (h : WorkFits s.work) :
    WorkFits (fillNeighbours x y color s).state.work :=
  andThen_state (p := fun t => WorkFits t.work) (workFits_paintNeighbour 0 _ color h) fun _ _ h1 =>
    andThen_state (p := fun t => WorkFits t.work) (workFits_paintNeighbour 1 _ color h1) fun _ _ h2 =>
      andThen_state (p := fun t => WorkFits t.work) (workFits_paintNeighbour 2 _ color h2) fun _ _ h3 =>
        workFits_paintNeighbour 3 _ color h3

/-- Every command keeps the ranges of the working registers. -/
theorem exec_workFits {i : Instr} {s t : State} (h : exec i s = .next t) (hs : WorkFits s.work) : WorkFits t.work := by
  obtain rfl | ⟨f, rfl⟩ := exec_next_cases h
  · cases i with
    | create | release | setpoint | getpoint => exact exec_work_eq h rfl ▸ hs
    | line x0 y0 x1 y1 color =>
      rw [ownRule, lineBody, finish_work]
      exact workFits_drawLine color (verticesFit_of_workFits hs) (point_fits_toInt x0 y0) (point_fits_toInt x1 y1)
    | tri x0 y0 x1 y1 x2 y2 color =>
      rw [ownRule, triBody, finish_work]
      exact workFits_drawTriangle color s (point_fits_toInt x0 y0) (point_fits_toInt x1 y1) (point_fits_toInt x2 y2)
    | filln x y color =>
      rw [ownRule, fillnBody, finish_work]
      exact workFits_fillNeighbours _ _ color hs
  · exact hs

theorem workFits_reset : WorkFits Work.reset where
  ends := by decide
  dx := by decide
  derr := by decide
  ystep := rfl
  err := .inl ⟨rfl, rfl⟩
  x := by decide
  y := by decide
  vertices := by decide

end Machine

open Machine

/-! ### The obligations -/

/-- Settles O49: a command writes lanes of in-bounds pixels, which the invariant places inside BUF, and makes an image only where it
fits; reset leaves no image; the host's other moves write neither. -/
theorem everyStepKeepsTheImageInvariants : Obligations.EveryStepKeepsTheImageInvariants := by
  intro s t hi h
  refine step_preserves h hi (fun P i _ hexec => (exec_ends hexec).2.inv hi) (fun P _ => ?_) (fun moves => ?_)
    (fun moves => inv_applyReset hi moves) (fun moves _ => ?_) (fun P moves => ?_)
  · exact ⟨hi.noImage, hi.fits, nofun, hi.canonical, hi.inside⟩
  · exact ⟨hi.noImage, hi.fits, hi.notBusy, hi.canonical, hi.inside⟩
  · exact ⟨hi.noImage, hi.fits, nofun, hi.canonical, hi.inside⟩
  · exact ⟨hi.noImage, hi.fits, hi.notBusy, hi.canonical, hi.inside⟩

/-- Settles O50: a line loads the registers in their ranges whatever they held, each iteration of the walk keeps them, and a command
stops before or after an iteration. -/
theorem everyStepKeepsTheRasterizerRanges : Obligations.EveryStepKeepsTheRasterizerRanges := by
  intro s t hs h
  exact step_preserves (p := fun t => WorkFits t.work) h hs (fun P i _ hexec => exec_workFits hexec hs) (fun _ _ => hs)
    (fun _ => hs) (fun _ => workFits_reset) (fun _ _ => hs) (fun _ _ => hs)

/-- Settles O48: there is no image, no lane is listed, and every working register is zero. -/
theorem invariantsHoldAtReset : Obligations.InvariantsHoldAtReset :=
  fun cfg => ⟨inv_of_noImage rfl ⟨rfl, rfl, rfl, rfl⟩ nofun (reset_mem_wf cfg) nofun, workFits_reset⟩

end Sys2Proof

/-! The channels, the lifecycle, reset and the end of a run (30_encoding.md R76, R78; 60_exceptions.md R171 to R177;
70_reset_and_hazards.md R190 to R194): the settled obligations about them. -/

namespace Sys2Proof

namespace Machine

/-! ### One step, by what it does -/

theorem step_of_accepts_none {s : State} (ha : s.accepts = none) : step s = hostTurn s := by
  simp only [step, ha]

theorem accepts_of_phase_ne_idle {s : State} (h : s.phase ≠ .idle) : s.accepts = none := by
  simp [State.accepts, State.ready, h]

theorem accepts_of_halt {s : State} (h : s.halt = true) : s.accepts = none := by
  simp [State.accepts, State.ready, h]

theorem accepts_of_chan {s : State} (h : s.chan = none) : s.accepts = none := by
  simp [State.accepts, h]

theorem step_of_reset {s : State} {moves : List HostMove} (ha : s.accepts = none) (hhost : s.host = .reset :: moves) :
    step s = .next (applyReset { s with host := moves }) := by
  simp only [step_of_accepts_none ha, hostTurn, hhost]

theorem step_of_take {s : State} {moves : List HostMove} (hp : s.phase = .resp) (hhost : s.host = .take :: moves) :
    step s = .next (takeResponse { s with host := moves }) := by
  have ha : s.accepts = none := accepts_of_phase_ne_idle (by simp [hp])
  simp only [step_of_accepts_none ha, hostTurn, hhost, hp, if_true]

/-- A packet the unit accepts is answered: IllegalCommand, or as the command it decodes to ends. -/
theorem step_of_accepts {s : State} {P : Packet} (ha : s.accepts = some P) :
    (IllegalPacket s.cfg P ∧ step s = .next (raisePlain .illegalCommand (accept P s))) ∨
    (∃ i t, decode s.cfg P = .ok i ∧ step s = .next t ∧ Ends i (accept P s) t) := by
  by_cases hill : IllegalPacket s.cfg P
  · exact .inl ⟨hill, step_of_illegalPacket ha hill⟩
  · obtain ⟨i, hd⟩ := not_illegalPacket_iff.mp hill
    obtain ⟨-, hh, -⟩ := accepts_some.mp ha
    obtain ⟨t, ht, hends⟩ := exec_ends_of_running (s := accept P s) i hh
    exact .inr ⟨i, t, hd, step_of_decode ha hd ▸ ht, hends⟩

/-- The host's turn stops only before a halted unit, as stuck (R174). -/
theorem hostTurn_next_or_stuck (s : State) :
    (∃ t, hostTurn s = .next t) ∨ (s.halt = true ∧ hostTurn s = .fault .halted) := by
  have hwait : (∃ t, waitOrStuck s = .next t) ∨ (s.halt = true ∧ waitOrStuck s = .fault .halted) := by
    unfold waitOrStuck
    split
    next h =>
      simp only [Bool.and_eq_true] at h
      exact .inr ⟨h.1.1, rfl⟩
    next => exact .inl ⟨_, rfl⟩
  unfold hostTurn
  split
  · exact hwait
  · exact .inl ⟨_, rfl⟩
  · split <;> exact .inl ⟨_, rfl⟩
  · split
    · exact .inl ⟨_, rfl⟩
    · exact hwait

/-- A step gives a next state, or the unit is halted and it is stuck. -/
theorem step_next_or_stuck (s : State) : (∃ t, step s = .next t) ∨ (s.halt = true ∧ step s = .fault .halted) := by
  cases ha : s.accepts with
  | none => rw [step_of_accepts_none ha]; exact hostTurn_next_or_stuck s
  | some P =>
    obtain ⟨-, h⟩ | ⟨i, t, -, h, -⟩ := step_of_accepts ha
    · exact .inl ⟨_, h⟩
    · exact .inl ⟨_, h⟩

/-- Everything that is the unit's but PHASE is unchanged. -/
structure SameUnit (s t : State) : Prop where
  cfg : t.cfg = s.cfg
  descriptor : SameDescriptor s t
  mem : t.mem = s.mem
  work : t.work = s.work
  cmd : t.cmd = s.cmd
  rsp : t.rsp = s.rsp

/-- The host's moves other than reset change its side of the channels and PHASE (R78). -/
theorem hostTurn_sameUnit {s t : State} (h : hostTurn s = .next t) (hhost : ∀ moves, s.host ≠ .reset :: moves) :
    SameUnit s t := by
  obtain rfl | ⟨m, hm, -⟩ | ⟨m, -, -, rfl⟩ | ⟨m, -, -, rfl⟩ | ⟨P, m, -, -, rfl⟩ := hostTurn_cases h
  · exact ⟨rfl, ⟨rfl, rfl, rfl, rfl, rfl, rfl⟩, rfl, rfl, rfl, rfl⟩
  · exact absurd hm (hhost m)
  · exact ⟨rfl, ⟨rfl, rfl, rfl, rfl, rfl, rfl⟩, rfl, rfl, rfl, rfl⟩
  · exact ⟨rfl, ⟨rfl, rfl, rfl, rfl, rfl, rfl⟩, rfl, rfl, rfl, rfl⟩
  · exact ⟨rfl, ⟨rfl, rfl, rfl, rfl, rfl, rfl⟩, rfl, rfl, rfl, rfl⟩

/-- A halted unit accepts nothing, so the step is the host's. -/
theorem step_sameUnit_of_halt {s t : State} (hh : s.halt = true) (h : step s = .next t)
    (hhost : ∀ moves, s.host ≠ .reset :: moves) : SameUnit s t :=
  hostTurn_sameUnit (step_of_accepts_none (accepts_of_halt hh) ▸ h) hhost

/-! ### The form of a response (R76) -/

/-- The response offered has the form of R76: a status of R171, zero in the unused bits, `data` only where a pixel was read, and
`frow`, `fcol` only for OutOfBounds. -/
def HasFormR76 (t : State) (reads : Prop) : Prop :=
  t.phase = .resp ∧ (rspStatus t.rsp).toNat ≤ 4 ∧ t.rsp.extractLsb' 16 16 = 0 ∧ t.rsp.extractLsb' 96 32 = 0 ∧
    (rspData t.rsp ≠ 0 → rspStatus t.rsp = 0x00 ∧ reads) ∧ (rspStatus t.rsp ≠ 0x01 → rspFrow t.rsp = 0 ∧ rspFcol t.rsp = 0)

theorem code_le_four (f : Status) : f.code.toNat ≤ 4 := by
  cases f <;> decide

theorem hasFormR76_respond {r : Response} {s : State} {reads : Prop} (hdata : r.data ≠ 0 → r.status = .ok ∧ reads)
    (hinfo : r.status ≠ .outOfBounds → r.frow = 0 ∧ r.fcol = 0) : HasFormR76 (respond r s) reads := by
  refine ⟨rfl, ?_, pack_zero_high r, pack_zero_top r, ?_, ?_⟩
  · rw [respond_rsp, rspStatus_pack]
    exact code_le_four _
  · rw [respond_rsp, rspData_pack, rspStatus_pack]
    exact fun h => (hdata h).imp_left (congrArg Status.code)
  · rw [respond_rsp, rspFrow_pack, rspFcol_pack, rspStatus_pack]
    exact fun h => hinfo fun e => h (congrArg Status.code e)

theorem hasFormR76_raisePlain (f : Status) (s : State) (reads : Prop) : HasFormR76 (raisePlain f s) reads :=
  hasFormR76_respond (r := ⟨f, 0, 0, 0⟩) (fun h => absurd rfl h) fun _ => ⟨rfl, rfl⟩

theorem hasFormR76_outOfBounds (row col : Int) (s : State) (reads : Prop) : HasFormR76 (raise .outOfBounds row col s) reads :=
  hasFormR76_respond (r := ⟨.outOfBounds, 0, low32 row, low32 col⟩) (fun h => absurd rfl h) fun h => absurd rfl h

theorem hasFormR76_respondOk {d : Byte} (s : State) {reads : Prop} (h : d ≠ 0 → reads) : HasFormR76 (respondOk d s) reads :=
  hasFormR76_respond (r := ⟨.ok, d, 0, 0⟩) (fun hd => ⟨rfl, h hd⟩) fun _ => ⟨rfl, rfl⟩

theorem Ends.hasFormR76 {i : Instr} {s t : State} (h : Ends i s t) : HasFormR76 t (∃ r c, i = .getpoint r c) := by
  cases h with
  | drew _ _ _ r =>
    cases r with
    | going s => exact hasFormR76_respondOk s fun h => absurd rfl h
    | failed row col s => exact hasFormR76_outOfBounds row col s _
  | got r c => exact hasFormR76_respondOk _ fun _ => ⟨r, c, rfl⟩
  | missed => exact hasFormR76_outOfBounds ..
  | created | released => exact hasFormR76_respondOk _ fun h => absurd rfl h
  | invalid | absent | exhausted => exact hasFormR76_raisePlain ..

/-! ### The status of a command that proceeds -/

theorem rspStatus_respondOk (d : Byte) (s : State) : rspStatus (respondOk d s).rsp = Status.ok.code :=
  (answers_respondOk d s).status

theorem rspStatus_raise (f : Status) (row col : Int) (s : State) : rspStatus (raise f row col s).rsp = f.code :=
  (answers_raise f row col s).status

theorem rspStatus_raisePlain (f : Status) (s : State) : rspStatus (raisePlain f s).rsp = f.code :=
  (answers_raisePlain f s).status

theorem lifecycleProceeds_accept (i : Instr) (P : Packet) (s : State) :
    lifecycleProceeds (accept P s) i = lifecycleProceeds s i := by
  cases i <;> rfl

/-- The faults of the commands' own rules (R171). -/
theorem Ends.rspStatus_of_proceeds {i : Instr} {s t : State} (h : Ends i s t) (hw : i.wellFormed s.cfg = true)
    (hp : lifecycleProceeds s i = true) :
    rspStatus t.rsp = Status.ok.code ∨ (rspStatus t.rsp = Status.allocationFailure.code ∧ ∃ w h n m, i = .create w h n m) ∨
      (rspStatus t.rsp = Status.outOfBounds.code ∧ i ≠ .release ∧ ∀ w h n m, i ≠ .create w h n m) := by
  cases h with
  | invalid _ _ _ hf => rw [hp] at hf; cases hf
  | absent _ _ _ _ hf => simp [Instr.wellFormed, hf] at hw
  | exhausted w h n m => exact .inr (.inl ⟨rspStatus_raisePlain .., w, h, n, m, rfl⟩)
  | drew _ _ _ r hv =>
    cases r with
    | going s => exact .inl (rspStatus_respondOk ..)
    | failed row col s =>
      refine .inr (.inr ⟨rspStatus_raise .., ?_, fun w h n m => ?_⟩) <;> rintro rfl <;> cases hv
  | missed => exact .inr (.inr ⟨rspStatus_raise .., nofun, nofun⟩)
  | created | released | got => exact .inl (rspStatus_respondOk ..)

/-! ### LIVE, HALT and the descriptor -/

/-- HALT is set by a CREATE that answers AllocationFailure and by nothing else (R22, R174). -/
theorem Ends.halt_eq_or_exhausted {i : Instr} {s t : State} (h : Ends i s t) :
    t.halt = s.halt ∨ ((∃ w h n m, i = .create w h n m) ∧ rspStatus t.rsp = Status.allocationFailure.code) := by
  cases h with
  | exhausted w h n m => exact .inr ⟨⟨w, h, n, m, rfl⟩, rspStatus_raisePlain ..⟩
  | drew _ _ _ r _ _ _ hr =>
    obtain ⟨q, k, w, e, -⟩ := hr.finish_eq
    rw [e]
    exact .inl rfl
  | _ => exact .inl rfl

theorem Ends.writes_descriptor {i : Instr} {s t : State} (h : Ends i s t) :
    SameDescriptor s t ∨ (∃ w h n m, i = .create w h n m) ∨ (i = .release ∧ t.halt = s.halt) := by
  by_cases hcre : ∃ w h n m, i = .create w h n m
  · exact .inr (.inl hcre)
  · by_cases hrel : i = .release
    · exact .inr (.inr ⟨hrel, h.halt_eq_or_exhausted.resolve_right fun ⟨hc, _⟩ => hcre hc⟩)
    · exact .inl (h.sameDescriptor hrel fun w h n m e => hcre ⟨w, h, n, m, e⟩)

/-- A field of LIVE, HALT and the descriptor has changed. -/
def DescriptorChanged (s t : State) : Prop :=
  t.live ≠ s.live ∨ t.width ≠ s.width ∨ t.height ≠ s.height ∨ t.maxval ≠ s.maxval ∨ t.name ≠ s.name ∨ t.halt ≠ s.halt

theorem not_descriptorChanged {s t : State} (h : SameDescriptor s t) : ¬ DescriptorChanged s t := by
  simp [DescriptorChanged, h.live, h.width, h.height, h.maxval, h.name, h.halt]

/-! ### The end of a run (R194) -/

/-- A take with nothing offered neither ends a run nor starts one. -/
theorem runEnded_dropTake_iff {s : State} {moves : List HostMove} (hhost : s.host = .take :: moves) :
    RunEnded { s with host := moves } ↔ RunEnded s := by
  have hto : noFurtherCommand s.host = noFurtherCommand moves := by rw [hhost]; rfl
  constructor
  · rintro ⟨hidle, hrun, hnone, hcome, hans⟩
    exact ⟨hidle, hrun, hnone, hto.trans hcome, hans⟩
  · rintro ⟨hidle, hrun, hnone, hcome, hans⟩
    exact ⟨hidle, hrun, hnone, hto.symm.trans hcome, hans⟩

theorem not_runEnded_of_halt {s : State} (h : s.halt = true) : ¬ RunEnded s := by
  intro hend
  have := hend.running
  simp [h] at this

theorem accepts_of_runEnded {s : State} (h : RunEnded s) : s.accepts = none := accepts_of_chan h.noneWaiting

/-- Once a run has ended, its host can only drop takes until it asserts reset. -/
theorem step_of_runEnded {s t : State} (hend : RunEnded s) (h : step s = .next t) (hhost : ∀ moves, s.host ≠ .reset :: moves) :
    t = s ∨ ∃ moves, s.host = .take :: moves ∧ t = { s with host := moves } := by
  rw [step_of_accepts_none (accepts_of_runEnded hend)] at h
  obtain ht | ⟨m, hm, -⟩ | ⟨m, -, hp, -⟩ | ⟨m, hm, -, ht⟩ | ⟨P, m, hm, -, -⟩ := hostTurn_cases h
  · exact .inl ht
  · exact absurd hm (hhost m)
  · rw [hend.idle] at hp; cases hp
  · exact .inr ⟨m, hm, ht⟩
  · have hcome := hend.noneToCome
    rw [hm] at hcome
    cases hcome

theorem stride_of_width_zero {s : State} (h : s.width = 0) : s.stride = 1 := by
  rw [State.stride, h]
  rfl

end Machine

open Machine

/-! ### The obligations -/

/-- Settles O6: the step's own equation for a packet that decodes. -/
theorem stepRunsTheDecodedCommand : Obligations.StepRunsTheDecodedCommand :=
  fun _ _ _ hp hh hc hd => step_of_decode (accepts_some.mpr ⟨hp, hh, hc⟩) hd

/-- Settles O7, by the ways a command ends. -/
theorem everyResponseHasTheFormOfR76 : Obligations.EveryResponseHasTheFormOfR76 := by
  refine ⟨fun s P ha => ?_, fun i s t h => (exec_ends h).2.hasFormR76⟩
  obtain ⟨-, ht⟩ | ⟨i, t, hd, ht, hends⟩ := step_of_accepts ha
  · exact ⟨_, ht, hasFormR76_raisePlain ..⟩
  · refine ⟨t, ht, ?_⟩
    simp only [hd, Except.ok.injEq]
    exact hends.hasFormR76

/-- Settles O38: a halted unit accepts nothing, and the host's one move that writes HALT is reset. -/
theorem onlyResetLeavesTheHaltedState : Obligations.OnlyResetLeavesTheHaltedState := by
  refine ⟨fun i s => exec_halted i, fun s t hh h hhost => ?_, fun s P hh hp hc hhost => ?_, fun s moves hh hhost => ?_,
    fun s t hh h hhost => ⟨not_runEnded_of_halt hh, not_runEnded_of_halt ?_⟩⟩
  · obtain ⟨-, hd, hmem, hwork, hcmd, hrsp⟩ := step_sameUnit_of_halt hh h hhost
    exact ⟨hd, hmem, hwork, hcmd, hrsp⟩
  · rw [step_of_accepts_none (accepts_of_halt hh)]
    simp [hostTurn, hhost, waitOrStuck, hh, hp, hc]
  · exact ⟨_, step_of_reset (accepts_of_halt hh) hhost, rfl, rfl⟩
  · exact (step_sameUnit_of_halt hh h hhost).descriptor.halt.trans hh

/-- Settles O39: an accepted packet is answered, and the host's turn is stuck only before a halted unit. -/
theorem stepStopsOnlyWhenHalted : Obligations.StepStopsOnlyWhenHalted := by
  refine ⟨fun s hh => ?_, fun s r h => ?_⟩
  · obtain h | ⟨hhalt, -⟩ := step_next_or_stuck s
    · exact h
    · rw [hh] at hhalt; cases hhalt
  · obtain ⟨t, ht⟩ | ⟨-, ht⟩ := step_next_or_stuck s
    · rw [h] at ht; cases ht
    · rw [h] at ht; cases ht

/-- Settles O40: the reset operation writes every field of R30, and draws all of BUF under a new number. -/
theorem resetReturnsTheUnitToItsStartState : Obligations.ResetReturnsTheUnitToItsStartState := by
  intro s moves ha hhost
  exact ⟨_, step_of_reset ha hhost, rfl, rfl, rfl, rfl, rfl, rfl, stride_of_width_zero rfl, alloc_live rfl,
    size_of_not_alloc (alloc_live rfl), rfl, rfl, rfl, rfl, rfl, rfl, fun i => Nat.lt_succ_of_le (drawNumber_le _ i),
    fun i => readWord_redraw s.mem⟩

/-- Settles O41: no lane is listed after reset, so every word reads as the power-on draw. -/
theorem resetStateIsAsR30Says : Obligations.ResetStateIsAsR30Says := by
  intro cfg s
  have hread (i : Nat) : s.mem.readWord i = Config.draw 0 i :=
    word_ext fun k hk => laneExtract_readWord s.mem i k hk
  exact ⟨rfl, rfl, rfl, rfl, rfl, rfl, stride_of_width_zero rfl, alloc_live rfl, size_of_not_alloc (alloc_live rfl), rfl,
    ⟨0, hread⟩, rfl⟩

/-- Settles O42: a command ends in one response offered and takes none; of the host's moves only a take hands one over. -/
theorem oneResponsePerAcceptedCommand : Obligations.OneResponsePerAcceptedCommand := by
  intro s t h hreset
  obtain ⟨P, i, ha, -, hends⟩ | ⟨P, e, ha, -, rfl⟩ | ⟨ha, hturn⟩ := step_cases h
  · obtain ⟨hp, hh, -⟩ := accepts_some.mp ha
    obtain ⟨-, hresp, -⟩ := hends.answered
    have hsame := hends.sameOutside
    have htaken : t.taken = s.taken := hsame.taken
    exact ⟨fun _ => ⟨hp, hh⟩, by simp [ha, hp, hresp, htaken], .inl htaken, hsame.pastRuns, by simp [ha]⟩
  · obtain ⟨hp, hh, -⟩ := accepts_some.mp ha
    exact ⟨fun _ => ⟨hp, hh⟩, by simp [ha, hp], .inl rfl, rfl, by simp [ha]⟩
  · obtain rfl | ⟨m, hm, -⟩ | ⟨m, -, hp, rfl⟩ | ⟨m, -, -, rfl⟩ | ⟨P, m, -, hc, rfl⟩ := hostTurn_cases hturn
    · exact ⟨by simp [ha], by simp [ha], .inl rfl, rfl, fun _ _ => rfl⟩
    · exact absurd hm (hreset ha m)
    · exact ⟨by simp [ha], by simp [ha, hp], .inr ⟨hp, rfl, rfl⟩, rfl, fun _ _ => rfl⟩
    · exact ⟨by simp [ha], by simp [ha], .inl rfl, rfl, fun _ _ => rfl⟩
    · exact ⟨by simp [ha], by simp [ha], .inl rfl, rfl, fun _ hne => absurd hc hne⟩

/-- Settles O43: decoding comes before the lifecycle table, and the table before the command's own rule. -/
theorem faultsAreReportedInPriorityOrder : Obligations.FaultsAreReportedInPriorityOrder := by
  intro s P ha
  obtain ⟨hill, ht⟩ | ⟨i, t, hd, ht, hends⟩ := step_of_accepts ha
  · have hnone (i : Instr) : decode s.cfg P ≠ .ok i := fun hd => not_illegalPacket_iff.mpr ⟨i, hd⟩ hill
    exact ⟨_, ht, fun _ => rspStatus_raisePlain .., fun i hd => absurd hd (hnone i), fun i hd => absurd hd (hnone i)⟩
  · have hw : i.wellFormed s.cfg = true := (decode_eq_ok_iff.mp hd).1.wellFormed
    have hlegal := not_illegalPacket_iff.mpr ⟨i, hd⟩
    refine ⟨t, ht, fun hill => absurd hill hlegal, fun j hj hp => ?_, fun j hj hp => ?_⟩ <;>
      obtain rfl : i = j := Except.ok.inj (hd.symm.trans hj)
    · obtain ⟨-, rfl⟩ | ⟨hp', -⟩ := hends.forbidden_or_proceeds hw
      · exact rspStatus_raisePlain ..
      · rw [lifecycleProceeds_accept, hp] at hp'; cases hp'
    · exact hends.rspStatus_of_proceeds hw ((lifecycleProceeds_accept i P s).trans hp)

/-- Settles O44: the frame of the commands and of the host's moves. -/
theorem onlyCreateReleaseAndResetWriteTheDescriptor : Obligations.OnlyCreateReleaseAndResetWriteTheDescriptor := by
  intro s t h
  have unchanged {u : State} (hd : SameDescriptor s u) {q : Prop} (hc : DescriptorChanged s u) : q :=
    absurd hc (not_descriptorChanged hd)
  have halt_same {u : State} (hd : SameDescriptor s u) {q : Prop} (h0 : s.halt = false) (h1 : u.halt = true) : q := by
    rw [hd.halt, h0] at h1
    cases h1
  obtain ⟨P, i, ha, hdec, hends⟩ | ⟨P, e, ha, -, rfl⟩ | ⟨ha, hturn⟩ := step_cases h
  · refine ⟨hends.sameOutside.cfg, fun hc => .inr ⟨P, ha, ?_⟩, fun h0 h1 => ?_⟩
    · obtain hd | ⟨w, hh, n, m, rfl⟩ | ⟨rfl, hhalt⟩ := hends.writes_descriptor
      · exact unchanged ⟨hd.live, hd.halt, hd.width, hd.height, hd.maxval, hd.name⟩ hc
      · exact .inl ⟨w, hh, n, m, hdec⟩
      · exact .inr ⟨hdec, hhalt⟩
    · obtain hhalt | ⟨-, hstatus⟩ := hends.halt_eq_or_exhausted
      · rw [h1, accept_halt, h0] at hhalt
        cases hhalt
      · exact hstatus
  · have hd : SameDescriptor s (raisePlain .illegalCommand (accept P s)) := ⟨rfl, rfl, rfl, rfl, rfl, rfl⟩
    exact ⟨rfl, unchanged hd, halt_same hd⟩
  · by_cases hreset : ∃ moves, s.host = .reset :: moves
    · obtain ⟨moves, hhost⟩ := hreset
      rw [step_of_reset ha hhost] at h
      cases h
      exact ⟨rfl, fun _ => .inl ⟨moves, hhost⟩, fun _ => nofun⟩
    · have hd := hostTurn_sameUnit hturn (not_exists.mp hreset)
      exact ⟨hd.cfg, unchanged hd.descriptor, halt_same hd.descriptor⟩

/-- Settles O51: the step's own equation for a take with a response offered. -/
theorem takingTheResponseMakesTheUnitIdle : Obligations.TakingTheResponseMakesTheUnitIdle :=
  fun _ _ => step_of_take

/-- Settles O54: the end of a run is a state of the channels, and of the steps only a take brings it about. -/
theorem runEndsWithTheResponseToItsLastCommand : Obligations.RunEndsWithTheResponseToItsLastCommand := by
  refine ⟨fun s moves hp hh hc hhost hcome => ?_, fun s t h hnot hend => ?_, fun s t h hend hreset => ?_,
    fun s t moves h ha hhost => ?_, fun s => not_runEnded_of_halt⟩
  · have hend : RunEnded (takeResponse { s with host := moves }) := ⟨rfl, hh, hc, hcome, nofun⟩
    exact ⟨_, step_of_take hp hhost, hend, fun ⟨_, hok, _, hl⟩ => ⟨hok, hl⟩, fun ⟨hok, hl⟩ => ⟨hend, hok, hh, hl⟩⟩
  · obtain ⟨P, i, -, -, hends⟩ | ⟨P, e, -, -, rfl⟩ | ⟨-, hturn⟩ := step_cases h
    · obtain ⟨-, hp, -⟩ := hends.answered
      rw [hend.idle] at hp; cases hp
    · exact nomatch hend.idle
    · obtain rfl | ⟨m, -, rfl⟩ | ⟨m, hm, hp, rfl⟩ | ⟨m, hm, -, rfl⟩ | ⟨P, m, -, -, rfl⟩ := hostTurn_cases hturn
      · exact absurd hend hnot
      · exact absurd rfl hend.answered
      · exact ⟨hp, ⟨m, hm⟩, rfl⟩
      · exact absurd ((runEnded_dropTake_iff hm).mp hend) hnot
      · exact nomatch hend.noneWaiting
  · obtain rfl | ⟨m, hm, rfl⟩ := step_of_runEnded hend h hreset
    · exact ⟨hend, Iff.rfl⟩
    · have hiff := runEnded_dropTake_iff hm
      exact ⟨hiff.mpr hend, and_congr hiff Iff.rfl⟩
  · rw [step_of_reset ha hhost] at h
    cases h
    exact ⟨fun hend => hend.answered rfl, rfl, rfl⟩

end Sys2Proof

/-! The host's command sequences (43_host_sequences.md R161, R163): the settled obligations about them. -/

namespace Sys2Proof

namespace Machine

/-! ### Row-major order -/

/-- The rows of a grid written one after the other: the entry of row `r` and column `c` is at `r * width + c`. -/
theorem getElem?_flatMap_range {α : Type} {f : Nat → List α} {width : Nat} (hlen : ∀ r, (f r).length = width) {height r c : Nat}
    (hr : r < height) (hc : c < width) : ((List.range height).flatMap f)[r * width + c]? = (f r)[c]? := by
  induction height with
  | zero => exact absurd hr (Nat.not_lt_zero r)
  | succ n ih =>
    have hbefore : ((List.range n).flatMap f).length = n * width := by simp [List.length_flatMap, hlen]
    rw [List.range_succ, List.flatMap_append, List.flatMap_singleton]
    obtain hlt | rfl := Nat.lt_succ_iff_lt_or_eq.mp hr
    · have hpos : r * width + c < n * width := calc
        r * width + c < (r + 1) * width := by rw [Nat.succ_mul]; omega
        _ ≤ n * width := Nat.mul_le_mul_right _ hlt
      rw [List.getElem?_append_left (hbefore.symm ▸ hpos), ih hlt]
    · rw [List.getElem?_append_right (by omega), hbefore, Nat.add_sub_cancel_left]

/-- The GETPOINTs of one row (R161). -/
def getpointRow (width row : Nat) : List Instr :=
  (List.range width).map fun col => .getpoint (BitVec.ofNat 32 row) (BitVec.ofNat 32 col)

theorem imgWrite_eq_rows (s : State) :
    imgWrite s.outputs = (List.range s.height.toNat).flatMap (getpointRow s.width.toNat) := rfl

theorem getpointRow_length (width row : Nat) : (getpointRow width row).length = width := by simp [getpointRow]

theorem mem_getpointRow {width row : Nat} {i : Instr} :
    i ∈ getpointRow width row ↔ ∃ col < width, .getpoint (BitVec.ofNat 32 row) (BitVec.ofNat 32 col) = i := by
  simp [getpointRow]

/-! ### The pixel phase of IMG.READ -/

/-- The SETPOINT at position `k` of the grid, in row-major order (R163). -/
def setpointAt (width k t : Nat) : Instr :=
  .setpoint (BitVec.ofNat 32 (k / width)) (BitVec.ofNat 32 (k % width)) (BitVec.ofNat 32 t)

/-- After the last column of a row comes the first of the next row. -/
theorem div_mod_succ_of_last {n width : Nat} (hw : 0 < width) (h : n % width + 1 = width) :
    (n + 1) / width = n / width + 1 ∧ (n + 1) % width = 0 := by
  have := Nat.div_add_mod n width
  exact (Nat.div_mod_unique hw).mpr ⟨by rw [Nat.mul_succ]; omega, hw⟩

theorem div_mod_succ_of_not_last {n width : Nat} (hw : 0 < width) (h : n % width + 1 ≠ width) :
    (n + 1) / width = n / width ∧ (n + 1) % width = n % width + 1 := by
  have := Nat.div_add_mod n width
  have := Nat.mod_lt n hw
  exact (Nat.div_mod_unique hw).mpr ⟨by omega, by omega⟩

/-- One token, at position `n` of the grid: a SETPOINT while the grid is not full. -/
theorem imgReadPixels_cons {width : Nat} (hw : 0 < width) (height t : Nat) (tokens : List Nat) (n : Nat) :
    imgReadPixels width height (t :: tokens) (n / width) (n % width) =
      if n < width * height then
        setpointAt width n t :: imgReadPixels width height tokens ((n + 1) / width) ((n + 1) % width)
      else [] := by
  refine if_congr ((Nat.div_lt_iff_lt_mul hw).trans (by rw [Nat.mul_comm])) (congrArg _ ?_) rfl
  by_cases h : n % width + 1 = width
  · obtain ⟨hrow, hcol⟩ := div_mod_succ_of_last hw h
    rw [if_pos h, hrow, hcol]
  · obtain ⟨hrow, hcol⟩ := div_mod_succ_of_not_last hw h
    rw [if_neg h, hrow, hcol]

theorem imgReadPixels_length {width : Nat} (hw : 0 < width) (height : Nat) (tokens : List Nat) (n : Nat) :
    (imgReadPixels width height tokens (n / width) (n % width)).length = min tokens.length (width * height - n) := by
  induction tokens generalizing n with
  | nil => simp [imgReadPixels]
  | cons t tokens ih =>
    rw [imgReadPixels_cons hw]
    split
    · rw [List.length_cons, ih, List.length_cons]; omega
    · rw [List.length_nil, Nat.sub_eq_zero_of_le (not_lt.mp ‹_›), Nat.min_zero]

theorem imgReadPixels_getElem? {width : Nat} (hw : 0 < width) (height : Nat) {tokens : List Nat} {n k t : Nat}
    (hk : k < width * height - n) (ht : tokens[k]? = some t) :
    (imgReadPixels width height tokens (n / width) (n % width))[k]? = some (setpointAt width (n + k) t) := by
  induction tokens generalizing n k with
  | nil => simp at ht
  | cons u tokens ih =>
    rw [imgReadPixels_cons hw, if_pos (by omega)]
    cases k with
    | zero =>
      obtain rfl : u = t := by simpa using ht
      rfl
    | succ k =>
      rw [List.getElem?_cons_succ] at ht ⊢
      rw [ih (by omega) ht, Nat.add_right_comm, Nat.add_assoc]

end Machine

open Machine

/-! ### The obligations -/

/-- Settles O52: the GETPOINTs are the rows of the grid one after the other, and a row and a column of the image fit an operand. -/
theorem imgWriteReadsEveryPixelInRowMajorOrder : Obligations.ImgWriteReadsEveryPixelInRowMajorOrder := by
  intro s
  rw [imgWrite_eq_rows]
  refine ⟨by simp [List.length_flatMap, getpointRow_length, Nat.mul_comm], fun r c hr hc => ?_, fun i hi => ?_⟩
  · rw [getElem?_flatMap_range (getpointRow_length _) hr hc]
    simp [getpointRow, hc]
  · obtain ⟨row, hrow, hi⟩ := List.mem_flatMap.mp hi
    obtain ⟨col, hcol, rfl⟩ := mem_getpointRow.mp hi
    rw [List.mem_range] at hrow
    refine ⟨_, _, rfl, (inBounds_uint32_iff ..).mpr ?_⟩
    rw [BitVec.toNat_ofNat, BitVec.toNat_ofNat, Nat.mod_eq_of_lt (hrow.trans s.height.isLt),
      Nat.mod_eq_of_lt (hcol.trans s.width.isLt)]
    exact ⟨hrow, hcol⟩

/-- Settles O53, by the position of the grid that each token comes to. -/
theorem imgReadFillsTheGridInRowMajorOrder : Obligations.ImgReadFillsTheGridInRowMajorOrder := by
  intro width height tokens hw cmds
  have hlen : cmds.length = min tokens.length (width.toNat * height.toNat) := by
    simpa using imgReadPixels_length hw height.toNat tokens 0
  refine ⟨hlen, fun k t hk ht => ?_⟩
  have hgrid : k < width.toNat * height.toNat := by omega
  refine ⟨?_, Nat.div_lt_of_lt_mul hgrid⟩
  simpa [setpointAt] using imgReadPixels_getElem? hw height.toNat (n := 0) hgrid ht

end Sys2Proof
